-- ==== Sys2Proof/Word.lean ====
section
/-! DEFINITION. The bit-vector types of the block: command words (30_encoding R70), Colors and
channels (00_scope R11). Everything else the block computes with is a mathematical integer (R12). -/

namespace Sys2Proof

/-- One 32-bit command word (30_encoding R70). -/
abbrev Word := BitVec 32

/-- A Color: a 16-bit unsigned value (00_scope R11; layout 30_encoding R91). -/
abbrev Color := BitVec 16

/-- An 8-bit value: a color channel (00_scope R11), a panel command byte or an SPI data byte. -/
abbrev Byte := BitVec 8

end Sys2Proof
end

