-- ==== Sys2Proof/Machine/Color.lean ====
section
/-! DEFINITION. The RGB565 color codec as pure functions (40_codec R100, R101; layout 30_encoding R91),
the chroma-key predicate (42_canvas R146), the wire bytes of a Color (20_memory R51) and the named
colors (30_encoding R92). -/

namespace Sys2Proof.Machine

/-- `makeRGB(r, g, b) = { r[7:3], g[7:2], b[7:3] }` (40_codec R100). -/
def makeRGB (r g b : Byte) : Color :=
  r.extractLsb' 3 5 ++ g.extractLsb' 2 6 ++ b.extractLsb' 3 5

/-- `getR(c) = { c[15:11], 0b000 }` (R101). -/
def getR (c : Color) : Byte := c.extractLsb' 11 5 ++ 0#3

/-- `getG(c) = { c[10:5], 0b00 }` (R101). -/
def getG (c : Color) : Byte := c.extractLsb' 5 6 ++ 0#2

/-- `getB(c) = { c[4:0], 0b000 }` (R101). -/
def getB (c : Color) : Byte := c.extractLsb' 0 5 ++ 0#3

/-- The near-magenta chroma-key band (42_canvas R146). -/
def transparent (c : Color) : Bool :=
  decide (224 ≤ (getR c).toNat ∧ (getG c).toNat ≤ 16 ∧ 224 ≤ (getB c).toNat)

/-- The high byte of a 16-bit value. -/
def highByte (v : BitVec 16) : Byte := v.extractLsb' 8 8

/-- The low byte of a 16-bit value. -/
def lowByte (v : BitVec 16) : Byte := v.extractLsb' 0 8

/-- The named colors (30_encoding R92). -/
def Named.red : Color := makeRGB 255 0 0
/-- BLUE (R92). -/
def Named.blue : Color := makeRGB 0 0 255
/-- GREEN (R92). -/
def Named.green : Color := makeRGB 0 255 0
/-- BLACK (R92). -/
def Named.black : Color := 0x0000
/-- WHITE (R92). -/
def Named.white : Color := 0xFFFF
/-- MAGENTA (R92). -/
def Named.magenta : Color := makeRGB 255 0 255

end Sys2Proof.Machine
end

