-- ==== Sys2Proof/Syntax.lean ====
section
/-! DEFINITION. The abstract commands: one constructor per row of the opcode map (30_encoding R79),
with the operands the decode function gives it (R85). -/

namespace Sys2Proof

/-- A command. A slot index is the unsigned value of its 8-bit field; a coordinate the signed value of
its 16-bit field (R77, R85). -/
inductive Instr where
  /-- SELD i: select one display (44_bus_addressor R202). -/
  | seld (i : Nat)
  /-- SELM mask: select a subset (R203). -/
  | selm (mask : Word)
  /-- SELA: select every position (R204). -/
  | sela
  /-- INITALL (R205). -/
  | initall
  /-- UPDALL (R206). -/
  | updall
  /-- UPDD i (R207). -/
  | updd (i : Nat)
  /-- UPDM mask (R208). -/
  | updm (mask : Word)
  /-- INIT d (43_panel_driver R172). -/
  | init (d : Nat)
  /-- UPD d (R176). -/
  | upd (d : Nat)
  /-- PWR d, on (R180). -/
  | pwr (d : Nat) (on : Bool)
  /-- INV d, on (R182). -/
  | inv (d : Nat) (on : Bool)
  /-- CLR d, color (42_canvas R140). -/
  | clr (d : Nat) (color : Color)
  /-- SETPX d, x, y, color (R142). -/
  | setpx (d : Nat) (color : Color) (x y : Int)
  /-- GETPX d, x, y (R144). -/
  | getpx (d : Nat) (x y : Int)
  /-- RECT d, x1, y1, x2, y2, color (R145). -/
  | rect (d : Nat) (color : Color) (x1 y1 x2 y2 : Int)
  /-- IMG d, id, xStart, yStart (R147). -/
  | img (d : Nat) (id : BitVec 16) (xStart yStart : Int)
  /-- GLYPH d, x, y, coverage, thresh (R150). -/
  | glyph (d : Nat) (coverage thresh : Byte) (x y : Int)
  /-- TONAT d, x, y (41_transform R125). -/
  | tonat (d : Nat) (x y : Int)
  /-- MKRGB r, g, b (40_codec R103). -/
  | mkrgb (r g b : Byte)
  /-- GETR color (R104). -/
  | getr (color : Color)
  /-- GETG color (R105). -/
  | getg (color : Color)
  /-- GETB color (R106). -/
  | getb (color : Color)
  deriving DecidableEq, Repr

end Sys2Proof
end

