-- ==== Sys2Proof/WellFormed.lean ====
section
/-! DEFINITION. Which commands an encoding can hold: the ranges of the operand fields
(30_encoding R73, R74, R77). -/

namespace Sys2Proof

/-- An 8-bit index field holds 0 .. 255 (30_encoding R73, R74). -/
def fitsIndex (i : Nat) : Bool := decide (i < 256)

/-- A coordinate of a P word is a two's-complement value in -32768 .. 32767 (30_encoding R77). -/
def fitsCoord (v : Int) : Bool := decide (-32768 ≤ v ∧ v ≤ 32767)

/-- Every operand fits its field. -/
def Instr.wellFormed : Instr → Bool
  | .seld i => fitsIndex i
  | .selm _ => true
  | .sela => true
  | .initall => true
  | .updall => true
  | .updd i => fitsIndex i
  | .updm _ => true
  | .init d => fitsIndex d
  | .upd d => fitsIndex d
  | .pwr d _ => fitsIndex d
  | .inv d _ => fitsIndex d
  | .clr d _ => fitsIndex d
  | .setpx d _ x y => fitsIndex d && fitsCoord x && fitsCoord y
  | .getpx d x y => fitsIndex d && fitsCoord x && fitsCoord y
  | .rect d _ x1 y1 x2 y2 =>
    fitsIndex d && fitsCoord x1 && fitsCoord y1 && fitsCoord x2 && fitsCoord y2
  | .img d _ x y => fitsIndex d && fitsCoord x && fitsCoord y
  | .glyph d _ _ x y => fitsIndex d && fitsCoord x && fitsCoord y
  | .tonat d x y => fitsIndex d && fitsCoord x && fitsCoord y
  | .mkrgb _ _ _ => true
  | .getr _ => true
  | .getg _ => true
  | .getb _ => true

end Sys2Proof
end

