-- ==== Sys2Proof/Decode.lean ====
section
/-! DEFINITION. The decode function of 30_encoding R85, total on every list of words and rejecting by
name, and the encoder written from the same tables (R70-R79). -/

namespace Sys2Proof

/-! ### The opcode map (30_encoding R79) -/

/-- The opcodes of R79's table. -/
inductive Opcode where
  | seld | selm | sela | initall | updall | updd | updm
  | init | upd | pwr | inv
  | clr | setpx | getpx | rect | img | glyph | tonat
  | mkrgb | getr | getg | getb
  deriving DecidableEq, Repr

/-- The opcode byte of each row of R79. -/
def Opcode.byte : Opcode → Byte
  | .seld => 0x01
  | .selm => 0x02
  | .sela => 0x03
  | .initall => 0x04
  | .updall => 0x05
  | .updd => 0x06
  | .updm => 0x07
  | .init => 0x10
  | .upd => 0x11
  | .pwr => 0x12
  | .inv => 0x13
  | .clr => 0x20
  | .setpx => 0x21
  | .getpx => 0x22
  | .rect => 0x23
  | .img => 0x24
  | .glyph => 0x25
  | .tonat => 0x26
  | .mkrgb => 0x30
  | .getr => 0x31
  | .getg => 0x32
  | .getb => 0x33

/-- Every row of R79, in the table's order. -/
def Opcode.all : List Opcode :=
  [.seld, .selm, .sela, .initall, .updall, .updd, .updm, .init, .upd, .pwr, .inv,
   .clr, .setpx, .getpx, .rect, .img, .glyph, .tonat, .mkrgb, .getr, .getg, .getb]

/-- The opcode with a given byte; every byte not in R79 is reserved (R80). -/
def Opcode.ofByte (b : Byte) : Option Opcode :=
  Opcode.all.find? fun op => op.byte == b

/-- The header bits R79 marks `= 0`, as a mask (R80). -/
def Opcode.zeroMask : Opcode → Word
  | .seld | .updd => 0x0000FFFF
  | .selm | .sela | .initall | .updall | .updm => 0x00FFFFFF
  | .init | .upd | .getpx | .tonat => 0x0000FFFF
  | .pwr | .inv => 0x0000FFFE
  | .clr | .setpx | .rect | .img | .glyph | .mkrgb => 0x00000000
  | .getr | .getg | .getb => 0x00FF0000

/-- `len` of R79: the words of the command, the header counted. -/
def Opcode.len : Opcode → Nat
  | .rect => 3
  | .selm | .updm | .setpx | .getpx | .img | .glyph | .tonat => 2
  | .seld | .sela | .initall | .updall | .updd | .init | .upd | .pwr | .inv | .clr
  | .mkrgb | .getr | .getg | .getb => 1

/-! ### Fields (30_encoding R71-R77) -/

/-- Bits `[31:24]`: the opcode (R71). -/
def opField (h : Word) : Byte := h.extractLsb' 24 8

/-- Bits `[23:16]`: `i`, `d` or `r` (R73-R75). -/
def midField (h : Word) : Byte := h.extractLsb' 16 8

/-- Bits `[15:0]`: `arg` or `color` (R74, R76). -/
def argField (h : Word) : BitVec 16 := h.extractLsb' 0 16

/-- Bits `[15:8]`: `g`, or the coverage (R75, R79). -/
def hiField (h : Word) : Byte := h.extractLsb' 8 8

/-- Bits `[7:0]`: `b`, or the threshold (R75, R79). -/
def loField (h : Word) : Byte := h.extractLsb' 0 8

/-- Bit 0: the Boolean argument of PWR and INV (R79). -/
def onField (h : Word) : Bool := h.getLsbD 0

/-- The index a header selects: `uint(h[23:16])` (R85). -/
def indexField (h : Word) : Nat := (midField h).toNat

/-- First coordinate of a P word: `sint(w[31:16])` (R77). -/
def pointX (w : Word) : Int := (w.extractLsb' 16 16 : BitVec 16).toInt

/-- Second coordinate of a P word: `sint(w[15:0])` (R77). -/
def pointY (w : Word) : Int := (w.extractLsb' 0 16 : BitVec 16).toInt

/-! ### Decoding (30_encoding R85) -/

/-- What the decoder says of the words that start at the command pointer. -/
inductive Decoded where
  /-- The stream ends here: end of run (70_reset R279). -/
  | ended
  /-- The header is illegal (30_encoding R80). -/
  | illegal
  /-- The header is legal and needs `len` words, which the stream does not hold (R82). -/
  | truncated (len : Nat)
  /-- The command. -/
  | instr (i : Instr)
  deriving DecidableEq, Repr

/-- The command of opcode `op` with header `h` and operand words `w1`, `w2`; an opcode of fewer words
reads none of the words it lacks (R79, R85). -/
def assembleFields (op : Opcode) (h w1 w2 : Word) : Instr :=
  match op with
  | .seld => .seld (indexField h)
  | .selm => .selm w1
  | .sela => .sela
  | .initall => .initall
  | .updall => .updall
  | .updd => .updd (indexField h)
  | .updm => .updm w1
  | .init => .init (indexField h)
  | .upd => .upd (indexField h)
  | .pwr => .pwr (indexField h) (onField h)
  | .inv => .inv (indexField h) (onField h)
  | .clr => .clr (indexField h) (argField h)
  | .setpx => .setpx (indexField h) (argField h) (pointX w1) (pointY w1)
  | .getpx => .getpx (indexField h) (pointX w1) (pointY w1)
  | .rect => .rect (indexField h) (argField h) (pointX w1) (pointY w1) (pointX w2) (pointY w2)
  | .img => .img (indexField h) (argField h) (pointX w1) (pointY w1)
  | .glyph => .glyph (indexField h) (hiField h) (loField h) (pointX w1) (pointY w1)
  | .tonat => .tonat (indexField h) (pointX w1) (pointY w1)
  | .mkrgb => .mkrgb (midField h) (hiField h) (loField h)
  | .getr => .getr (argField h)
  | .getg => .getg (argField h)
  | .getb => .getb (argField h)

/-- The decode function of R85 on the rest of the stream, `ws = stream[cp..]`. -/
def decode (ws : List Word) : Decoded :=
  match ws with
  | [] => .ended
  | h :: rest =>
    match Opcode.ofByte (opField h) with
    | none => .illegal
    | some op =>
      if h &&& op.zeroMask ≠ 0 then .illegal
      else if ws.length < op.len then .truncated op.len
      else .instr (assembleFields op h (rest.getD 0 0) (rest.getD 1 0))

/-! ### Encoding (30_encoding R70-R79) -/

/-- The opcode of a command. -/
def Instr.opcode : Instr → Opcode
  | .seld _ => .seld
  | .selm _ => .selm
  | .sela => .sela
  | .initall => .initall
  | .updall => .updall
  | .updd _ => .updd
  | .updm _ => .updm
  | .init _ => .init
  | .upd _ => .upd
  | .pwr _ _ => .pwr
  | .inv _ _ => .inv
  | .clr _ _ => .clr
  | .setpx _ _ _ _ => .setpx
  | .getpx _ _ _ => .getpx
  | .rect _ _ _ _ _ _ => .rect
  | .img _ _ _ _ => .img
  | .glyph _ _ _ _ _ => .glyph
  | .tonat _ _ _ => .tonat
  | .mkrgb _ _ _ => .mkrgb
  | .getr _ => .getr
  | .getg _ => .getg
  | .getb _ => .getb

/-- The length in words of a command (R79). -/
def Instr.len (i : Instr) : Nat := i.opcode.len

/-- A header word from its opcode, bits `[23:16]` and bits `[15:0]` (R71, R73-R76). -/
def header (op : Opcode) (mid : Byte) (arg : BitVec 16) : Word := op.byte ++ mid ++ arg

/-- A P word (R77). -/
def pointWord (x y : Int) : Word := BitVec.ofInt 16 x ++ BitVec.ofInt 16 y

/-- The 8-bit index field (R73, R74). -/
def indexByte (i : Nat) : Byte := BitVec.ofNat 8 i

/-- The `arg` of PWR and INV: the Boolean in bit 0, every other bit 0 (R74, R79). -/
def onArg (on : Bool) : BitVec 16 := if on then 1 else 0

/-- The words of a command, its `= 0` fields set to 0 (R79, R83). -/
def encode (i : Instr) : List Word :=
  match i with
  | .seld k => [header .seld (indexByte k) 0]
  | .selm mask => [header .selm 0 0, mask]
  | .sela => [header .sela 0 0]
  | .initall => [header .initall 0 0]
  | .updall => [header .updall 0 0]
  | .updd k => [header .updd (indexByte k) 0]
  | .updm mask => [header .updm 0 0, mask]
  | .init d => [header .init (indexByte d) 0]
  | .upd d => [header .upd (indexByte d) 0]
  | .pwr d on => [header .pwr (indexByte d) (onArg on)]
  | .inv d on => [header .inv (indexByte d) (onArg on)]
  | .clr d c => [header .clr (indexByte d) c]
  | .setpx d c x y => [header .setpx (indexByte d) c, pointWord x y]
  | .getpx d x y => [header .getpx (indexByte d) 0, pointWord x y]
  | .rect d c x1 y1 x2 y2 => [header .rect (indexByte d) c, pointWord x1 y1, pointWord x2 y2]
  | .img d id x y => [header .img (indexByte d) id, pointWord x y]
  | .glyph d cov th x y => [header .glyph (indexByte d) (cov ++ th), pointWord x y]
  | .tonat d x y => [header .tonat (indexByte d) 0, pointWord x y]
  | .mkrgb r g b => [header .mkrgb r (g ++ b)]
  | .getr c => [header .getr 0 c]
  | .getg c => [header .getg 0 c]
  | .getb c => [header .getb 0 c]

/-! ### The opcode table's numbering of bits -/

/-- The words of an instruction whose bits are `w`: bit 0 is the least significant bit of the first
word and a later word's bits count on from it; every bit at or above `nbits` is 0, up to the longest
command of three words (log entry 2). -/
def tableWords (nbits w : Nat) : List Word :=
  let v := w % 2 ^ nbits
  [BitVec.ofNat 32 v, BitVec.ofNat 32 (v >>> 32), BitVec.ofNat 32 (v >>> 64)]

/-- The command the decoder reads from an instruction whose bits are `w`. -/
def decodeTableWord (nbits w : Nat) : Option Instr :=
  match decode (tableWords nbits w) with
  | .instr i => some i
  | .ended => none
  | .illegal => none
  | .truncated _ => none

end Sys2Proof
end

