-- ==== Sys2Proof/Config.lean ====
section
/-! DEFINITION. The configuration record of 00_scope R9 as plain data, and the OPEN values of the spec as
constants without a body. Every field of `Cfg` is a parameter: a theorem about every state holds for
every value of it (log entries 1, 3 and 4). -/

namespace Sys2Proof

/-- The closed set of panel variants (43_panel_driver R170). -/
inductive Variant where
  | st7735
  | st7789
  deriving DecidableEq, Repr

/-- Panel rotation in degrees (00_scope R9). -/
inductive Rotation where
  | r0
  | r90
  | r180
  | r270
  deriving DecidableEq, Repr

/-- Panel mirror (00_scope R9). -/
inductive Mirror where
  | none
  | horizontal
  | vertical
  | origin
  deriving DecidableEq, Repr

/-- The read-only configuration of one present slot (10_state R27). -/
structure Panel where
  variant : Variant
  pixWidth : Nat
  pixHeight : Nat
  rotation : Rotation
  mirror : Mirror
  colOffset : Nat
  rowOffset : Nat
  bgr : Bool
  deriving DecidableEq, Repr

/-- Order of a Color's two bytes on the SPI wire (20_memory R51). -/
inductive ByteOrder where
  | bigEndian
  | littleEndian
  deriving DecidableEq, Repr

/-- How INV's argument maps to the physical invert command (43_panel_driver R182). -/
inductive Polarity where
  | direct
  | opposite
  deriving DecidableEq, Repr

/-- The panel command bytes (30_encoding R86). -/
structure CmdCodes where
  swreset : Byte
  slpout : Byte
  invoff : Byte
  invon : Byte
  dispoff : Byte
  dispon : Byte
  caset : Byte
  raset : Byte
  ramwr : Byte
  madctl : Byte
  deriving DecidableEq, Repr

/-- One entry (command byte, data bytes, delay in ms) of `initTable(variant)` (00_scope R9). -/
structure InitEntry where
  cmd : Byte
  data : List Byte
  ms : Nat
  deriving DecidableEq, Repr

/-- A pin a reset pulse may drive: RESET, PANEL_RESET or another pin the platform names
(10_state R36). CLOCK and DATA are none of these, since "Reset pulses must not drive CLOCK or DATA"
(92 D20; log entry 14). -/
inductive PulsePin where
  | reset
  | panelReset
  | other (n : Nat)
  deriving DecidableEq, Repr

/-- One event of a reset-pulse parameter: a pin level or a hold. DESIGN CHOICE (log entry 27): 00_scope
R9 and R15 make a pulse a list of trace events and do not say whether SPI bytes may be among them; the
model admits none. -/
inductive PulseStep where
  | pin (p : PulsePin) (lvl : Bool)
  | hold (ms : Nat)
  deriving DecidableEq, Repr

/-- The scan-order field and the row/column swap bit (30_encoding R87). -/
structure ScanOrder where
  scan : BitVec 2
  swap : Bool
  deriving DecidableEq, Repr

/-- An externally decoded image (20_memory R55). -/
structure Image where
  w : Nat
  h : Nat
  pix : List Color
  deriving DecidableEq, Repr

/-- The configuration record of 00_scope R9, less `N` and `slot` (the list `State.slots`) and
`fbInit` (an argument of `State.resetWith`). The functions of a variant are one field per variant;
`scanOrder` is a table of its 32 arguments; `images` lists the ids that have an image. -/
structure Cfg where
  wireByteOrder : ByteOrder
  images : List (BitVec 16 × Image)
  cmdCode : CmdCodes
  initTable7735 : List InitEntry
  initTable7789 : List InitEntry
  panelResetPulse : List PulseStep
  globalResetPulse : List PulseStep
  tSwReset : Nat
  tSlpOut : Nat
  scanOrder : Vector ScanOrder 32
  invertPolarity7735 : Polarity
  invertPolarity7789 : Polarity
  flipClearColor : Color
  halInitOk : Bool
  deriving DecidableEq, Repr

/-- The ranges 00_scope R9 gives a slot's numbers. -/
abbrev Panel.wf (p : Panel) : Prop :=
  1 ≤ p.pixWidth ∧ p.pixWidth ≤ 32767 ∧ 1 ≤ p.pixHeight ∧ p.pixHeight ≤ 32767 ∧
    p.colOffset + p.pixWidth - 1 ≤ 65535 ∧ p.rowOffset + p.pixHeight - 1 ≤ 65535

/-- `pix` is a list of `w*h` Colors (20_memory R55). -/
abbrev Image.wf (img : Image) : Prop :=
  img.pix.length = img.w * img.h

/-! ### Values the source leaves open (no body: nothing can be proved of their value; log entry 4) -/

/-- OPEN per-variant initialisation table (92 D20). -/
opaque Config.initTable : Variant → List InitEntry

/-- OPEN panel reset pulse (92 D20). -/
opaque Config.panelResetPulse : List PulseStep

/-- OPEN global reset pulse (92 D27). -/
opaque Config.globalResetPulse : List PulseStep

/-- OPEN delay after the software reset (92 D20). -/
opaque Config.tSwReset : Nat

/-- OPEN delay after sleep exit (92 D20). -/
opaque Config.tSlpOut : Nat

/-- OPEN scan-order table (92 D21). -/
opaque Config.scanField : Variant → Rotation → Mirror → BitVec 2

/-- OPEN row/column swap bit (92 D21). -/
opaque Config.scanSwap : Variant → Rotation → Mirror → Bool

end Sys2Proof
end

