-- ==== Sys2Proof/Machine/Params.lean ====
section
/-! DEFINITION. The functions the configuration record stands for (00_scope R9), and the board that
`State.reset` is configured with: this hardware's values where the spec gives them, the OPEN values as
constants without a body, and a topology the model names (log entries 3, 4 and 20). -/

namespace Sys2Proof

/-- `initTable(variant)` (00_scope R9). -/
def Cfg.initTable (cfg : Cfg) : Variant → List InitEntry
  | .st7735 => cfg.initTable7735
  | .st7789 => cfg.initTable7789

/-- `invertPolarity(variant)` (00_scope R9, 43_panel_driver R182). -/
def Cfg.invertPolarity (cfg : Cfg) : Variant → Polarity
  | .st7735 => cfg.invertPolarity7735
  | .st7789 => cfg.invertPolarity7789

/-- Place of a variant in the scan-order table. -/
def Variant.row : Variant → Fin 2
  | .st7735 => 0
  | .st7789 => 1

/-- Place of a rotation in the scan-order table. -/
def Rotation.row : Rotation → Fin 4
  | .r0 => 0
  | .r90 => 1
  | .r180 => 2
  | .r270 => 3

/-- Place of a mirror in the scan-order table. -/
def Mirror.row : Mirror → Fin 4
  | .none => 0
  | .horizontal => 1
  | .vertical => 2
  | .origin => 3

/-- Place of an orientation in the scan-order table: mirrors vary fastest, then rotations. -/
def scanPlace (v : Variant) (r : Rotation) (m : Mirror) : Fin 32 :=
  ⟨v.row.val * 16 + r.row.val * 4 + m.row.val, by omega⟩

/-- `scanOrder(variant, rotation, mirror)` (00_scope R9, 43_panel_driver R174). -/
def Cfg.scanOrderOf (cfg : Cfg) (v : Variant) (r : Rotation) (m : Mirror) : ScanOrder :=
  cfg.scanOrder[scanPlace v r m]

/-- `Cfg.images(id)` (20_memory R55). -/
def Cfg.image (cfg : Cfg) (id : BitVec 16) : Option Image :=
  cfg.images.lookup id

/-! ### The board of `State.reset` -/

/-- The default command bytes of 30_encoding R86. -/
def Board.cmdCode : CmdCodes where
  swreset := 0x01
  slpout := 0x11
  invoff := 0x20
  invon := 0x21
  dispoff := 0x28
  dispon := 0x29
  caset := 0x2A
  raset := 0x2B
  ramwr := 0x2C
  madctl := 0x36

/-- The orientations, in the order of the scan-order table. -/
def Board.orientations : List (Variant × Rotation × Mirror) :=
  [Variant.st7735, .st7789].flatMap fun v =>
    [Rotation.r0, .r90, .r180, .r270].flatMap fun r =>
      [Mirror.none, .horizontal, .vertical, .origin].map fun m => (v, r, m)

/-- The scan-order table of a function of the orientation. -/
def Board.scanTable (f : Variant → Rotation → Mirror → ScanOrder) : Vector ScanOrder 32 :=
  ⟨(Board.orientations.map fun a => f a.1 a.2.1 a.2.2).toArray, by simp [Board.orientations]⟩

/-- The image of 42_canvas R147's example, under the id it has there (log entry 3). -/
def Board.images : List (BitVec 16 × Image) :=
  [(1, { w := 2, h := 1, pix := [0xF81F, 0x07E0] })]

/-- The configuration of `State.reset`. -/
def Board.cfg : Cfg where
  wireByteOrder := .bigEndian
  images := Board.images
  cmdCode := Board.cmdCode
  initTable7735 := Config.initTable .st7735
  initTable7789 := Config.initTable .st7789
  panelResetPulse := Config.panelResetPulse
  globalResetPulse := Config.globalResetPulse
  tSwReset := Config.tSwReset
  tSlpOut := Config.tSlpOut
  scanOrder := Board.scanTable fun v r m => ⟨Config.scanField v r m, Config.scanSwap v r m⟩
  invertPolarity7735 := .direct
  invertPolarity7789 := .opposite
  flipClearColor := 0x0000
  halInitOk := true

/-- Slot 0 of the board: the panel of 95_test_vectors P1 (log entry 3). -/
def Board.panel0 : Panel where
  variant := .st7735
  pixWidth := 4
  pixHeight := 3
  rotation := .r0
  mirror := .none
  colOffset := 0
  rowOffset := 0
  bgr := false

/-- Slot 2 of the board: the panel of 95_test_vectors P2 (log entry 3). -/
def Board.panel2 : Panel where
  variant := .st7789
  pixWidth := 4
  pixHeight := 3
  rotation := .r90
  mirror := .horizontal
  colOffset := 0
  rowOffset := 0
  bgr := false

/-- The topology of `State.reset`: three slots, the middle one absent (log entry 3). -/
def Board.slots : List (Option Panel) := [some Board.panel0, none, some Board.panel2]

end Sys2Proof
end

