-- ==== Sys2Proof/Machine/State.lean ====
section
/-! DEFINITION. The architectural state of the block (10_state R20-R43) as plain data, the reasons a
step can stop, and the state after reset (10_state R39, 70_reset R260-R262). -/

namespace Sys2Proof.Machine

/-- A stage, an output or a line of the chain: 0, 1 or unknown (10_state R29-R31). -/
inductive Level where
  | low
  | high
  | unknown
  deriving DecidableEq, Repr

/-- `disp[k].lifecycle` (10_state R23, R24). -/
inductive Lifecycle where
  | uninitialized
  | initializing
  | ready
  deriving DecidableEq, Repr

/-- The driver record of a present slot (10_state R23); `none` is `unset`. -/
structure Driver where
  lifecycle : Lifecycle
  on : Option Bool
  inverted : Option Bool
  deriving DecidableEq, Repr

/-- The memory of one frame buffer: (native index, Color) cells in ONE canonical form, indices strictly
rising and no cell equal to what an unlisted index reads as (10_state R28; `Memory.wf`). -/
abbrev Memory := List (Nat × Color)

/-- A present slot: its read-only panel record (10_state R27), its driver record (R23) and its frame
buffer (R28). An absent slot has none of them. -/
structure Display where
  panel : Panel
  driver : Driver
  fb : Memory
  deriving DecidableEq, Repr

/-- The chip-select chain, position 0 first (10_state R29-R31). -/
structure Chain where
  sr : List Level
  out : List Level
  clock : Level
  data : Level
  deriving DecidableEq, Repr

/-- A pin of the HAL (10_state R36). -/
inductive Pin where
  | clock
  | data
  | reset
  | panelReset
  | other (n : Nat)
  deriving DecidableEq, Repr

/-- An event of the output trace (10_state R36). A selection set is the list of its positions in
ascending order (log entry 9). -/
inductive Event where
  /-- `digitalWrite`: `true` is level 1. -/
  | pin (p : Pin) (lvl : Bool)
  | delay (ms : Nat)
  | cmd (b : Byte) (sel : List Nat)
  | data (b : Byte) (sel : List Nat)
  deriving DecidableEq, Repr

/-- The non-fatal statuses (60_exceptions R231). -/
inductive Status where
  | ok
  | outOfBounds
  | absent
  deriving DecidableEq, Repr

/-- A value a command returns (10_state R22): a channel (GETR, GETG, GETB), a Color (MKRGB, GETPX) or
a native coordinate (TONAT). -/
inductive Value where
  | channel (v : Byte)
  | color (c : Color)
  | point (x y : Nat)
  deriving DecidableEq, Repr

/-- A result record (10_state R22). -/
structure Result where
  status : Status
  value : Option Value
  deriving DecidableEq, Repr

/-- The fault codes (60_exceptions R232). -/
inductive FaultCode where
  | illegalCommand
  | badIndex
  | notInitialized
  | chainUnknown
  | badImage
  | truncatedCommand
  | halInitFailure
  deriving DecidableEq, Repr

/-- The fault record (10_state R35). -/
structure FaultRecord where
  code : FaultCode
  cp : Nat
  words : List Word
  deriving DecidableEq, Repr

/-- The state of the block. `cfg` and `stream` are parameters of the step that no command writes
(10_state R42; log entry 1). -/
structure State where
  /-- The configuration record (00_scope R9). -/
  cfg : Cfg
  /-- The host's command-word stream (30_encoding R70). -/
  stream : List Word
  /-- The command pointer (R21). -/
  cp : Nat
  /-- The results (R22). -/
  results : List Result
  /-- The `N` display slots (R23, R27, R28); `none` is an absent slot. -/
  slots : List (Option Display)
  /-- The chip-select chain (R29-R31). -/
  chain : Chain
  /-- The fault record (R35). -/
  fault : Option FaultRecord
  /-- The output trace (R36). -/
  trace : List Event
  deriving DecidableEq, Repr

/-- Why the machine stops with a fault. -/
inductive Fault where
  /-- Raised by `step` in a state whose fault record is set: "a faulted state has no further step"
  (60_exceptions R236). The fault itself was taken by the step before, as a next state. Safe: the
  machine stops where the block stops (log entry 6). -/
  | halted (code : FaultCode)
  deriving DecidableEq, Repr

/-- Why a step has no meaning. -/
inductive Refusal where
  /-- An arm of `exec` for an instruction without a meaning. No arm raises it. Safe. -/
  | notModelled (mnemonic : String)
  /-- Raised by `step` when the stream has ended without a fault, the successful end of a run
  (70_reset R279). Safe: there is no command to execute (log entry 7). -/
  | endOfRun
  deriving DecidableEq, Repr

/-- The driver record at reset (10_state R39). -/
def Driver.atReset : Driver where
  lifecycle := .uninitialized
  on := none
  inverted := none

/-- The chain at reset, for `n` slots: all unknown, `n + 1` positions (10_state R39). -/
def Chain.atReset (n : Nat) : Chain where
  sr := List.replicate (n + 1) .unknown
  out := List.replicate (n + 1) .unknown
  clock := .unknown
  data := .unknown

/-- The slots at reset: `disp[k]` at its reset value and `fb[k] = fbInit(k, ·)` for a present slot `k`
(10_state R39). -/
def slotsAtReset (panels : List (Option Panel)) (fbInit : Nat → Memory) : List (Option Display) :=
  panels.mapIdx fun k slot => slot.map fun p => ⟨p, Driver.atReset, fbInit k⟩

/-- Reset of a block with configuration `cfg` and slots `panels`, frame buffers holding the arbitrary
contents `fbInit`, and the host's stream (10_state R39; 70_reset R260-R262). -/
def State.resetWith (cfg : Cfg) (panels : List (Option Panel)) (fbInit : Nat → Memory)
    (stream : List Word) : State where
  cfg := cfg
  stream := stream
  cp := 0
  results := []
  slots := slotsAtReset panels fbInit
  chain := Chain.atReset panels.length
  fault := if cfg.halInitOk then none else some ⟨.halInitFailure, 0, []⟩
  trace := []

/-- The machine right after reset: the board of `Params`, memory with nothing listed, no program
loaded (log entries 2, 3, 4 and 5). -/
def State.reset : State := State.resetWith Board.cfg Board.slots (fun _ => []) []

end Sys2Proof.Machine
end

