-- ==== Sys2Proof/Machine/Ops.lean ====
section
/-! DEFINITION. The named operations over memory, chain, trace and results, the completion of a command
(00_scope R16, 10_state R21, R22), taking a fault (60_exceptions R236), and reset as the way out of one
(R237). Every meaning is written over these. -/

namespace Sys2Proof.Machine

/-- The outcome of one command. -/
abbrev Outcome := Host.Outcome State Fault Refusal

/-! ### Frame-buffer memory (00_scope R14, 20_memory R50-R53) -/

/-- What an unlisted cell reads as (log entry 5). -/
def Memory.unlisted : Color := 0x0000

/-- The canonical form: indices strictly rising, no cell equal to what an unlisted one reads as. -/
abbrev Memory.wf (m : Memory) : Prop :=
  m.Pairwise (fun a b => a.1 < b.1) ∧ ∀ a ∈ m, a.2 ≠ Memory.unlisted

/-- Every listed index is below `n`, the size of the frame buffer (00_scope R14). -/
abbrev Memory.within (m : Memory) (n : Nat) : Prop := ∀ a ∈ m, a.1 < n

/-- `MemRead((d, idx), 2)` on one frame buffer (00_scope R14). -/
def Memory.read : Memory → Nat → Color
  | [], _ => Memory.unlisted
  | (j, c) :: m, i => if j = i then c else Memory.read m i

/-- List a cell at its place, in the place of an older cell of that index. -/
def Memory.insert (i : Nat) (c : Color) : Memory → Memory
  | [] => [(i, c)]
  | (j, x) :: m =>
    if i < j then (i, c) :: (j, x) :: m
    else if i = j then (i, c) :: m
    else (j, x) :: Memory.insert i c m

/-- Take an index off the list. -/
def Memory.erase (i : Nat) (m : Memory) : Memory := m.filter fun a => a.1 ≠ i

/-- `MemWrite((d, idx), 2, c)` on one frame buffer (00_scope R14). -/
def Memory.write (m : Memory) (i : Nat) (c : Color) : Memory :=
  if c = Memory.unlisted then Memory.erase i m else Memory.insert i c m

/-- `for idx in 0 .. n-1: MemWrite((d, idx), 2, c)` in one pass (42_canvas R140; log entry 13). -/
def Memory.fill (m : Memory) (n : Nat) (c : Color) : Memory :=
  (if c = Memory.unlisted then [] else (List.range n).map fun i => (i, c)) ++
    m.filter fun a => n ≤ a.1

/-- The cells `0 .. n-1` in index order (20_memory R53). -/
def Memory.cells (m : Memory) (n : Nat) : List Color := (List.range n).map m.read

/-- The number of cells of a panel's frame buffer (10_state R28). -/
def cellCount (p : Panel) : Nat := p.pixWidth * p.pixHeight

/-! ### Slots (10_state R23, 00_scope R17) -/

/-- `N`, the number of display slots. -/
def State.numSlots (s : State) : Nat := s.slots.length

/-- `L = N + 1`, the number of chain positions (00_scope R9; 90_conflicts C6). -/
def State.numPositions (s : State) : Nat := s.numSlots + 1

/-- The display in slot `k`: none for an absent slot and for no slot. -/
def State.display (s : State) (k : Nat) : Option Display := (s.slots[k]?).getD none

/-- The panel record of slot `k` (10_state R27). -/
def State.panel (s : State) (k : Nat) : Option Panel := (s.display k).map (·.panel)

/-- The driver record `disp[k]` (10_state R23). -/
def State.driver (s : State) (k : Nat) : Option Driver := (s.display k).map (·.driver)

/-- The frame buffer `fb[k]` (10_state R28). -/
def State.fb (s : State) (k : Nat) : Option Memory := (s.display k).map (·.fb)

/-- The Color in cell `idx` of `fb[k]`, none where slot `k` holds no display. -/
def State.cell (s : State) (k idx : Nat) : Option Color := (s.fb k).map (·.read idx)

/-- Change the display in slot `k`, if there is one. -/
def State.updDisplay (s : State) (k : Nat) (f : Display → Display) : State :=
  { s with slots := s.slots.modify k (Option.map f) }

/-- `fb[k] <- m`. -/
def State.setFb (s : State) (k : Nat) (m : Memory) : State :=
  s.updDisplay k fun q => { q with fb := m }

/-! ### The chip-select chain (10_state R29-R33) -/

/-- The level a bit drives. -/
def Level.ofBool (b : Bool) : Level := if b then .high else .low

/-- A rising edge of CLOCK, all from the values before it (10_state R32): the outputs latch the stages,
the stages shift by one, and stage 0 takes DATA. -/
def Chain.rise (c : Chain) : Chain :=
  { c with out := c.sr, sr := (c.data :: c.sr).take c.sr.length }

/-- Drive CLOCK: a rise from a known 0 to 1 is an edge, nothing else is (10_state R32). -/
def Chain.driveClock (c : Chain) (b : Bool) : Chain :=
  let c' := if b = true ∧ c.clock = .low then c.rise else c
  { c' with clock := Level.ofBool b }

/-- Drive DATA (10_state R31, R32). -/
def Chain.driveData (c : Chain) (b : Bool) : Chain := { c with data := Level.ofBool b }

/-- What an event does to the chain: "Every Pin(CLOCK, v) and Pin(DATA, v) event also updates
chain.CLOCK or chain.DATA and applies rule R32" (10_state R36). -/
def Chain.apply (c : Chain) : Event → Chain
  | .pin .clock b => c.driveClock b
  | .pin .data b => c.driveData b
  | .pin .reset _ => c
  | .pin .panelReset _ => c
  | .pin (.other _) _ => c
  | .delay _ => c
  | .cmd _ _ => c
  | .data _ _ => c

/-- Every output is known: `Sel(S)` is defined (10_state R33). -/
def Chain.known (c : Chain) : Bool := c.out.all (· ≠ .unknown)

/-- The positions whose output is 0, ascending: the set `Sel(S)` where it is defined (10_state R33;
log entry 9). -/
def Chain.selected (c : Chain) : List Nat :=
  (List.range c.out.length).filter fun j => c.out[j]? = some .low

/-- `Sel(S)` (10_state R33). -/
def State.sel (s : State) : Option (List Nat) :=
  if s.chain.known then some s.chain.selected else none

/-! ### The trace (00_scope R15, 10_state R36) -/

/-- `emit` of each event in order. -/
def State.emit (s : State) (evs : List Event) : State :=
  { s with chain := evs.foldl Chain.apply s.chain, trace := s.trace ++ evs }

/-- The pin event's pin of a reset pulse (10_state R36). -/
def pulsePin : PulsePin → Pin
  | .reset => .reset
  | .panelReset => .panelReset
  | .other n => .other n

/-- The event of one step of a reset pulse (00_scope R15 `emitPulse`). -/
def pulseEvent : PulseStep → Event
  | .pin p lvl => .pin (pulsePin p) lvl
  | .hold ms => .delay ms

/-- `sendCmd(c, data)`: the command byte, then each data byte, all tagged `sel` (43_panel_driver R171). -/
def sendCmd (sel : List Nat) (c : Byte) (data : List Byte) : List Event :=
  .cmd c sel :: data.map (Event.data · sel)

/-- Whether an event's byte reaches the panel of slot `k`: the slot is present and in the event's set;
a byte for the phantom position or an absent slot reaches no panel (10_state R37). -/
def State.receives (s : State) (k : Nat) : Event → Bool
  | .pin _ _ => false
  | .delay _ => false
  | .cmd _ sel => (s.display k).isSome && decide (k ∈ sel)
  | .data _ sel => (s.display k).isSome && decide (k ∈ sel)

/-- The events of the trace whose bytes reach the panel of slot `k`, in trace order (20_memory R63). -/
def State.panelTrace (s : State) (k : Nat) : List Event := s.trace.filter (s.receives k)

/-! ### Completing a command and taking a fault (00_scope R16) -/

/-- The code of a status (60_exceptions R231). -/
def Status.code : Status → Byte
  | .ok => 0x00
  | .outOfBounds => 0x01
  | .absent => 0x02

/-- The code of a fault (60_exceptions R232). -/
def FaultCode.code : FaultCode → Byte
  | .illegalCommand => 0x10
  | .badIndex => 0x11
  | .notInitialized => 0x12
  | .chainUnknown => 0x13
  | .badImage => 0x14
  | .truncatedCommand => 0x15
  | .halInitFailure => 0x16

/-- `results` gains the record and `cp <- cp + len` (10_state R21, R22). -/
def State.finish (s : State) (len : Nat) (st : Status) (v : Option Value) : State :=
  { s with results := s.results ++ [⟨st, v⟩], cp := s.cp + len }

/-- `return (status, value); cp <- cp + len` (00_scope R16). -/
def complete (len : Nat) (st : Status) (v : Option Value) (s : State) : Outcome :=
  .next (s.finish len st v)

/-- The command words at `cp`, up to `len` of them or up to the end of the stream (10_state R35). -/
def State.wordsAt (s : State) (len : Nat) : List Word := (s.stream.drop s.cp).take len

/-- The faulted state of 60_exceptions R236: the record `(code, cp, words)`, no result, `cp` unchanged. -/
def State.faulted (s : State) (code : FaultCode) (len : Nat) : State :=
  { s with fault := some ⟨code, s.cp, s.wordsAt len⟩ }

/-- `raise Fault(code)` by a command of `len` words: the block takes the fault, a next state
(60_exceptions R236; log entry 6). -/
def raiseFault (code : FaultCode) (len : Nat) (s : State) : Outcome := .next (s.faulted code len)

/-- ILLEGAL_COMMAND records the header word alone (60_exceptions R232, R246). -/
def raiseIllegal (s : State) : Outcome := raiseFault .illegalCommand 1 s

/-- TRUNCATED_COMMAND records the words present (60_exceptions R232, R247). -/
def raiseTruncated (len : Nat) (s : State) : Outcome := raiseFault .truncatedCommand len s

/-- Reset, the only way out of a faulted state (60_exceptions R237): the configuration and the stream
stay, the frame buffers take the arbitrary contents `fbInit`. It is no command. -/
def State.restart (s : State) (fbInit : Nat → Memory) : State :=
  State.resetWith s.cfg (s.slots.map (Option.map (·.panel))) fbInit s.stream

/-! ### Fetch (30_encoding R85) -/

/-- What the decoder reads at the command pointer. -/
def fetch (s : State) : Decoded := decode (s.stream.drop s.cp)

/-- The stream with the words `ws` at index `cp` (log entry 2). -/
def placeWords (stream : List Word) (cp : Nat) (ws : List Word) : List Word :=
  (stream ++ List.replicate (cp - stream.length) 0).take cp ++ ws ++ stream.drop (cp + ws.length)

end Sys2Proof.Machine
end

