-- ==== Sys2Proof/Machine/Flags.lean ====
section
/-! DEFINITION. The per-display flags and lifecycle (10_state R23-R26, R38), the readiness checks
(60_exceptions R234, R248) and the values computed from configuration bits: the scan-direction byte
(30_encoding R87) and the physical invert command (43_panel_driver R182). The block has no condition
codes (10_state R38). -/

namespace Sys2Proof.Machine

/-- `disp[k] <- (lifecycle, on, inverted)`. -/
def State.setDriver (s : State) (k : Nat) (d : Driver) : State :=
  s.updDisplay k fun q => { q with driver := d }

/-- `disp[k].lifecycle <- l`. -/
def State.setLifecycle (s : State) (k : Nat) (l : Lifecycle) : State :=
  s.updDisplay k fun q => { q with driver := { q.driver with lifecycle := l } }

/-- `disp[k].on <- on` (10_state R25). -/
def State.setOn (s : State) (k : Nat) (on : Bool) : State :=
  s.updDisplay k fun q => { q with driver := { q.driver with on := some on } }

/-- `disp[k].inverted <- on` (10_state R26). -/
def State.setInverted (s : State) (k : Nat) (on : Bool) : State :=
  s.updDisplay k fun q => { q with driver := { q.driver with inverted := some on } }

/-- The driver record INIT leaves: Ready, on, normal (43_panel_driver R172). -/
def Driver.initialised : Driver where
  lifecycle := .ready
  on := some true
  inverted := some false

/-- The display is Ready (60_exceptions R248). -/
def Display.isReady (q : Display) : Bool := q.driver.lifecycle = .ready

/-- The scan-direction byte of a panel (43_panel_driver R174, 30_encoding R87): bits 7:6 scan, bit 5
swap, bit 3 BGR, every other bit 0. -/
def madctl (cfg : Cfg) (p : Panel) : Byte :=
  let so := cfg.scanOrderOf p.variant p.rotation p.mirror
  so.scan ++ BitVec.ofBool so.swap ++ 0#1 ++ BitVec.ofBool p.bgr ++ 0#3

/-- `phys = (invertPolarity(variant) = direct) ? on : not on` (43_panel_driver R182). -/
def physicalInvert (cfg : Cfg) (v : Variant) (on : Bool) : Bool :=
  match cfg.invertPolarity v with
  | .direct => on
  | .opposite => !on

/-- The command byte PWR sends (43_panel_driver R180). -/
def powerByte (cfg : Cfg) (on : Bool) : Byte :=
  if on then cfg.cmdCode.dispon else cfg.cmdCode.dispoff

/-- The command byte INV sends (43_panel_driver R182). -/
def invertByte (cfg : Cfg) (v : Variant) (on : Bool) : Byte :=
  if physicalInvert cfg v on then cfg.cmdCode.invon else cfg.cmdCode.invoff

end Sys2Proof.Machine
end

