-- ==== Sys2Proof/Machine/Operands.lean ====
section
/-! DEFINITION. The operand forms: a slot index with its checks (60_exceptions R235, R249), a mask word
(30_encoding R78), and a logical coordinate with the coordinate transform (41_transform R120-R124). -/

namespace Sys2Proof.Machine

/-! ### Slot operands -/

/-- The preamble of every command with a display operand: `d >= N` raises BAD_INDEX, an absent slot
returns ABSENT, and a present one goes on (42_canvas preamble; 60_exceptions R233, R235, R249). -/
def withDisplay (d len : Nat) (s : State) (go : Display → Outcome) : Outcome :=
  match s.slots[d]? with
  | none => raiseFault .badIndex len s
  | some none => complete len .absent none s
  | some (some q) => go q

/-- `mask[31:N] ≠ 0` (30_encoding R78, 60_exceptions R235). -/
def maskBeyond (mask : Word) (n : Nat) : Bool := mask >>> n ≠ 0

/-- `mask[j] = 1` (30_encoding R78). -/
def maskBit (mask : Word) (j : Nat) : Bool := mask.getLsbD j

/-! ### Logical dimensions (00_scope R10) -/

/-- The logical width of a panel. -/
def logicalWidth (p : Panel) : Nat :=
  match p.rotation with
  | .r0 => p.pixWidth
  | .r180 => p.pixWidth
  | .r90 => p.pixHeight
  | .r270 => p.pixHeight

/-- The logical height of a panel. -/
def logicalHeight (p : Panel) : Nat :=
  match p.rotation with
  | .r0 => p.pixHeight
  | .r180 => p.pixHeight
  | .r90 => p.pixWidth
  | .r270 => p.pixWidth

/-! ### The transform (41_transform R120) -/

/-- `rot` (R120). -/
def rot (r : Rotation) (pw ph x y : Int) : Int × Int :=
  match r with
  | .r0 => (x, y)
  | .r90 => (pw - y - 1, x)
  | .r180 => (pw - x - 1, ph - y - 1)
  | .r270 => (y, ph - x - 1)

/-- `mir` (R120). -/
def mir (m : Mirror) (pw ph X Y : Int) : Int × Int :=
  match m with
  | .none => (X, Y)
  | .horizontal => (pw - X - 1, Y)
  | .vertical => (X, ph - Y - 1)
  | .origin => (pw - X - 1, ph - Y - 1)

/-- `toNative`: the rotation first, then the mirror (R120). -/
def toNative (r : Rotation) (m : Mirror) (pw ph x y : Int) : Int × Int :=
  mir m pw ph (rot r pw ph x y).1 (rot r pw ph x y).2

/-- Undo of `rot` (R124). -/
def unrot (r : Rotation) (pw ph X Y : Int) : Int × Int :=
  match r with
  | .r0 => (X, Y)
  | .r90 => (Y, pw - X - 1)
  | .r180 => (pw - X - 1, ph - Y - 1)
  | .r270 => (ph - Y - 1, X)

/-- The logical pre-image of a native coordinate: the mirror undone first, then the rotation (R124).
No command uses it. -/
def toLogical (r : Rotation) (m : Mirror) (pw ph X Y : Int) : Int × Int :=
  unrot r pw ph (mir m pw ph X Y).1 (mir m pw ph X Y).2

/-- The logical bounds check, with the strict policy (R121). -/
abbrev inLogical (p : Panel) (x y : Int) : Prop :=
  0 ≤ x ∧ x < logicalWidth p ∧ 0 ≤ y ∧ y < logicalHeight p

/-- The native bounds check (R122). -/
abbrev inNative (p : Panel) (X Y : Int) : Prop :=
  0 ≤ X ∧ X < p.pixWidth ∧ 0 ≤ Y ∧ Y < p.pixHeight

/-- `toNative` with a panel's own parameters (R122). -/
def nativeOf (p : Panel) (x y : Int) : Int × Int :=
  toNative p.rotation p.mirror p.pixWidth p.pixHeight x y

/-- `nativeIndex(k, x, y)` on the panel of display `k`; `none` is `reject` (R122). -/
def nativeIndex (p : Panel) (x y : Int) : Option Nat :=
  if inLogical p x y then
    if inNative p (nativeOf p x y).1 (nativeOf p x y).2 then
      some ((nativeOf p x y).2 * p.pixWidth + (nativeOf p x y).1).toNat
    else none
  else none

end Sys2Proof.Machine
end

