-- ==== Sys2Proof/Machine/PanelDriver.lean ====
section
/-! DEFINITION. The panel driver commands (43_panel_driver R170-R182). They send to `Sel(S)` and do not
select (R171). -/

namespace Sys2Proof.Machine

/-! ### Event sequences -/

/-- `win(s, e)` (30_encoding R88). -/
def windowBytes (first last : Nat) : List Byte :=
  [highByte (BitVec.ofNat 16 first), lowByte (BitVec.ofNat 16 first),
   highByte (BitVec.ofNat 16 last), lowByte (BitVec.ofNat 16 last)]

/-- `wireBytes(c)` (20_memory R51). -/
def wireBytes (order : ByteOrder) (c : Color) : List Byte :=
  match order with
  | .bigEndian => [highByte c, lowByte c]
  | .littleEndian => [lowByte c, highByte c]

/-- `setWindow(d)` (43_panel_driver R175). -/
def windowEvents (cfg : Cfg) (p : Panel) (sel : List Nat) : List Event :=
  sendCmd sel cfg.cmdCode.caset (windowBytes p.colOffset (p.colOffset + p.pixWidth - 1)) ++
  sendCmd sel cfg.cmdCode.raset (windowBytes p.rowOffset (p.rowOffset + p.pixHeight - 1)) ++
  sendCmd sel cfg.cmdCode.ramwr []

/-- The pixel data of UPD: each cell in index order, as its wire bytes (R176, 30_encoding R89). -/
def pixelEvents (order : ByteOrder) (cells : List Color) (sel : List Nat) : List Event :=
  (cells.flatMap (wireBytes order)).map (Event.data · sel)

/-- One entry of `initTable(variant)` (R172). -/
def initEntryEvents (sel : List Nat) (e : InitEntry) : List Event :=
  sendCmd sel e.cmd e.data ++ [.delay e.ms]

/-- The events of INIT (R172). -/
def initEvents (cfg : Cfg) (p : Panel) (sel : List Nat) : List Event :=
  cfg.panelResetPulse.map pulseEvent ++
  sendCmd sel cfg.cmdCode.swreset [] ++ [.delay cfg.tSwReset] ++
  sendCmd sel cfg.cmdCode.slpout [] ++ [.delay cfg.tSlpOut] ++
  (cfg.initTable p.variant).flatMap (initEntryEvents sel) ++
  sendCmd sel cfg.cmdCode.madctl [madctl cfg p]

/-! ### Bodies shared with the bus commands -/

/-- `INITbody(d)` (44_bus_addressor header): R172 after its preamble, without its return. -/
def initBody (d : Nat) (q : Display) (s : State) : State :=
  ((s.setLifecycle d .initializing).emit (initEvents s.cfg q.panel s.chain.selected)).setDriver d
    Driver.initialised

/-- The power-on of UPD: only when `on` is false, DISPON alone, no delay (R176). -/
def powerOnIfOff (d : Nat) (q : Display) (s : State) : State :=
  if q.driver.on = some false then
    (s.emit (sendCmd s.chain.selected s.cfg.cmdCode.dispon [])).setOn d true
  else s

/-- `UPDbody(d)` (44_bus_addressor header): R176 after its preamble, without its return. -/
def updBody (d : Nat) (q : Display) (s : State) : State :=
  ((powerOnIfOff d q s).emit (windowEvents s.cfg q.panel s.chain.selected)).emit
    (pixelEvents s.cfg.wireByteOrder (q.fb.cells (cellCount q.panel)) s.chain.selected)

/-- The preamble of UPD, PWR and INV after the slot checks: NOT_INITIALIZED, then CHAIN_UNKNOWN
(R171, 60_exceptions R233). -/
def whenReady (q : Display) (s : State) (go : Outcome) : Outcome :=
  if q.isReady then
    if s.chain.known then go else raiseFault .chainUnknown 1 s
  else raiseFault .notInitialized 1 s

/-! ### Commands -/

/-- INIT (R172): allowed in any lifecycle state. -/
def execInit (d : Nat) (s : State) : Outcome :=
  withDisplay d 1 s fun q =>
    if s.chain.known then complete 1 .ok none (initBody d q s) else raiseFault .chainUnknown 1 s

/-- UPD (R176). -/
def execUpd (d : Nat) (s : State) : Outcome :=
  withDisplay d 1 s fun q => whenReady q s (complete 1 .ok none (updBody d q s))

/-- PWR (R180): the command is always sent and the flag set to the argument. -/
def execPwr (d : Nat) (on : Bool) (s : State) : Outcome :=
  withDisplay d 1 s fun q =>
    whenReady q s
      (complete 1 .ok none
        ((s.emit (sendCmd s.chain.selected (powerByte s.cfg on) [])).setOn d on))

/-- INV (R182): the physical command depends on the variant's polarity. -/
def execInv (d : Nat) (on : Bool) (s : State) : Outcome :=
  withDisplay d 1 s fun q =>
    whenReady q s
      (complete 1 .ok none
        ((s.emit (sendCmd s.chain.selected (invertByte s.cfg q.panel.variant on) [])).setInverted d
          on))

end Sys2Proof.Machine
end

