-- ==== Sys2Proof/Machine/BusAddressor.lean ====
section
/-! DEFINITION. The bus commands: the chain walk (44_bus_addressor R200), selection (R202-R204) and
orchestration (R205-R208). -/

namespace Sys2Proof.Machine

/-! ### The walk -/

/-- One CLOCK pulse, high then low. -/
def clockPulse : List Event := [.pin .clock true, .pin .clock false]

/-- The event sequence of a walk to target vector `t`, position 0 first, `true` for a 1: CLOCK low, the
bits from the last position down to 0, and one latch pulse (30_encoding R90). -/
def walkEvents (t : List Bool) : List Event :=
  [.pin .clock false] ++ t.reverse.flatMap (fun b => .pin .data b :: clockPulse) ++ clockPulse

/-- `walk(t)` (44_bus_addressor R200). -/
def walk (t : List Bool) (s : State) : State := s.emit (walkEvents t)

/-- `selVec(i)` on `l` positions: 0 at `i`, 1 elsewhere (R200). -/
def selVec (l i : Nat) : List Bool := (List.range l).map fun j => decide (j ≠ i)

/-- SELM's vector on `n` slots: 0 at the mask's positions, the phantom position `n` always 1 (R203). -/
def maskVec (mask : Word) (n : Nat) : List Bool :=
  ((List.range n).map fun j => !maskBit mask j) ++ [true]

/-- SELA's vector: 0 everywhere, the phantom position too (R204). -/
def allVec (l : Nat) : List Bool := List.replicate l false

/-- The walk of `selectDisplay(i)`. -/
def walkTo (i : Nat) (s : State) : State := walk (selVec s.numPositions i) s

/-! ### Selection -/

/-- SELD (R202): an absent slot may be selected. -/
def execSeld (i : Nat) (s : State) : Outcome :=
  if i < s.numSlots then complete 1 .ok none (walkTo i s) else raiseFault .badIndex 1 s

/-- SELM (R203). -/
def execSelm (mask : Word) (s : State) : Outcome :=
  if maskBeyond mask s.numSlots then raiseFault .badIndex 2 s
  else complete 2 .ok none (walk (maskVec mask s.numSlots) s)

/-- SELA (R204). -/
def execSela (s : State) : Outcome :=
  complete 1 .ok none (walk (allVec s.numPositions) s)

/-! ### Orchestration -/

/-- One index of INITALL: the walk, and INIT of a present display (R205). -/
def initAt (s : State) (i : Nat) : State :=
  match (walkTo i s).display i with
  | none => walkTo i s
  | some q => initBody i q (walkTo i s)

/-- One index of UPDALL: the walk, and UPD of a present display (R206). -/
def updateAt (s : State) (i : Nat) : State :=
  match (walkTo i s).display i with
  | none => walkTo i s
  | some q => updBody i q (walkTo i s)

/-- `for idx in 0 .. pixWidth*pixHeight - 1: MemWrite((i, idx), 2, flipClearColor)` (R207). -/
def flipClear (i : Nat) (q : Display) (s : State) : State :=
  s.setFb i (q.fb.fill (cellCount q.panel) s.cfg.flipClearColor)

/-- The walk, and for a present display UPD and the clear of its buffer (R207, R208). -/
def flipAt (s : State) (i : Nat) : State :=
  match (walkTo i s).display i with
  | none => walkTo i s
  | some q => flipClear i q (updBody i q (walkTo i s))

/-- Slot `k` holds a display that is not Ready (60_exceptions R248). -/
def State.notReadyAt (s : State) (k : Nat) : Bool :=
  match s.display k with
  | none => false
  | some q => !q.isReady

/-- The masked slots in ascending order (R208). -/
def maskedSlots (mask : Word) (n : Nat) : List Nat := (List.range n).filter (maskBit mask)

/-- INITALL (R205). -/
def execInitall (s : State) : Outcome :=
  complete 1 .ok none
    ((List.range s.numSlots).foldl initAt (s.emit (s.cfg.globalResetPulse.map pulseEvent)))

/-- UPDALL (R206): every present display must be Ready, checked before any effect. -/
def execUpdall (s : State) : Outcome :=
  if (List.range s.numSlots).any s.notReadyAt then raiseFault .notInitialized 1 s
  else complete 1 .ok none ((List.range s.numSlots).foldl updateAt s)

/-- UPDD (R207): BAD_INDEX, NOT_INITIALIZED, the walk, then ABSENT (60_exceptions R233). -/
def execUpdd (i : Nat) (s : State) : Outcome :=
  if i < s.numSlots then
    if s.notReadyAt i then raiseFault .notInitialized 1 s
    else
      match s.display i with
      | none => complete 1 .absent none (walkTo i s)
      | some _ => complete 1 .ok none (flipAt s i)
  else raiseFault .badIndex 1 s

/-- UPDM (R208): one walk and one update per mask bit, ascending. -/
def execUpdm (mask : Word) (s : State) : Outcome :=
  if maskBeyond mask s.numSlots then raiseFault .badIndex 2 s
  else if (maskedSlots mask s.numSlots).any s.notReadyAt then raiseFault .notInitialized 2 s
  else complete 2 .ok none ((maskedSlots mask s.numSlots).foldl flipAt s)

end Sys2Proof.Machine
end

