-- ==== Sys2Proof/Machine/Canvas.lean ====
section
/-! DEFINITION. The frame-buffer commands (42_canvas R140-R150). They change `fb[d]`, `results` and `cp`
alone. -/

namespace Sys2Proof.Machine

/-- `setPixel` on a frame buffer; `none` is `dropped` (R141). -/
def setPixel (p : Panel) (x y : Int) (c : Color) (m : Memory) : Option Memory :=
  (nativeIndex p x y).map fun r => m.write r c

/-- `getPixel` on a frame buffer (R143). -/
def getPixel (p : Panel) (x y : Int) (m : Memory) : Option Color :=
  (nativeIndex p x y).map m.read

/-- `setPixel` where a drop is not reported (R145, R147). -/
def putPixel (p : Panel) (x y : Int) (c : Color) (m : Memory) : Memory :=
  (setPixel p x y c m).getD m

/-- The integers `lo, lo+1, ..., hi`, none if `lo > hi` (00_scope R16). -/
def intRange (lo hi : Int) : List Int :=
  (List.range (hi - lo + 1).toNat).map fun (k : Nat) => lo + (k : Int)

/-- The loops of RECT over the rows `ys` and columns `xs` (R145). -/
def fillPixels (p : Panel) (c : Color) (ys xs : List Int) (m : Memory) : Memory :=
  ys.foldl (fun m y => xs.foldl (fun m x => putPixel p x y c m) m) m

/-- RECT's pixels: `y` in `y1 .. y2 - 1`, `x` in `x1 .. x2`, "drops are not reported" (R145). The loops
visit only the logical grid, since every pixel outside it is dropped (log entry 12). -/
def drawRect (p : Panel) (c : Color) (x1 y1 x2 y2 : Int) (m : Memory) : Memory :=
  fillPixels p c
    (intRange (max y1 0) (min (y2 - 1) (logicalHeight p - 1)))
    (intRange (max x1 0) (min x2 (logicalWidth p - 1))) m

/-- One pixel of IMG: skipped if transparent, else drawn at `(xStart + ix, yStart + iy)` (R147); an
image shorter than `w*h`, which 20_memory R55 excludes, has no such pixel (log entry 24). -/
def drawImagePixel (p : Panel) (img : Image) (xStart yStart : Int) (iy ix : Nat) (m : Memory) :
    Memory :=
  match img.pix[iy * img.w + ix]? with
  | none => m
  | some c => if transparent c then m else putPixel p (xStart + ix) (yStart + iy) c m

/-- IMG's loops: rows, then columns (R147). -/
def drawImage (p : Panel) (img : Image) (xStart yStart : Int) (m : Memory) : Memory :=
  (List.range img.h).foldl (fun m iy =>
    (List.range img.w).foldl (fun m ix => drawImagePixel p img xStart yStart iy ix m) m) m

/-- GLYPH's replacement of a background Color: a hard cutover per channel (R150). -/
def glyphColor (coverage thresh : Byte) (bg : Color) : Color :=
  let pick (channel : Byte) : Byte := if thresh.toNat < coverage.toNat then coverage else channel
  makeRGB (pick (getR bg)) (pick (getG bg)) (pick (getB bg))

/-- CLR (R140). -/
def execClr (d : Nat) (c : Color) (s : State) : Outcome :=
  withDisplay d 1 s fun q =>
    complete 1 .ok none (s.setFb d (q.fb.fill (cellCount q.panel) c))

/-- SETPX (R142). -/
def execSetpx (d : Nat) (c : Color) (x y : Int) (s : State) : Outcome :=
  withDisplay d 2 s fun q =>
    match setPixel q.panel x y c q.fb with
    | none => complete 2 .outOfBounds none s
    | some m => complete 2 .ok none (s.setFb d m)

/-- GETPX (R144). -/
def execGetpx (d : Nat) (x y : Int) (s : State) : Outcome :=
  withDisplay d 2 s fun q =>
    match getPixel q.panel x y q.fb with
    | none => complete 2 .outOfBounds none s
    | some v => complete 2 .ok (some (.color v)) s

/-- RECT (R145). -/
def execRect (d : Nat) (c : Color) (x1 y1 x2 y2 : Int) (s : State) : Outcome :=
  withDisplay d 3 s fun q =>
    complete 3 .ok none (s.setFb d (drawRect q.panel c x1 y1 x2 y2 q.fb))

/-- IMG (R147). -/
def execImg (d : Nat) (id : BitVec 16) (xStart yStart : Int) (s : State) : Outcome :=
  withDisplay d 2 s fun q =>
    match s.cfg.image id with
    | none => raiseFault .badImage 2 s
    | some img => complete 2 .ok none (s.setFb d (drawImage q.panel img xStart yStart q.fb))

/-- GLYPH (R150). -/
def execGlyph (d : Nat) (coverage thresh : Byte) (x y : Int) (s : State) : Outcome :=
  withDisplay d 2 s fun q =>
    match getPixel q.panel x y q.fb with
    | none => complete 2 .outOfBounds none s
    | some bg =>
      complete 2 .ok none (s.setFb d (putPixel q.panel x y (glyphColor coverage thresh bg) q.fb))

end Sys2Proof.Machine
end

