-- ==== Sys2Proof/Machine/Codec.lean ====
section
/-! DEFINITION. The four codec commands (40_codec R103-R106). They touch `results` and `cp` alone. -/

namespace Sys2Proof.Machine

/-- MKRGB (40_codec R103). -/
def execMkrgb (r g b : Byte) (s : State) : Outcome :=
  complete 1 .ok (some (.color (makeRGB r g b))) s

/-- GETR (R104). -/
def execGetr (c : Color) (s : State) : Outcome :=
  complete 1 .ok (some (.channel (getR c))) s

/-- GETG (R105). -/
def execGetg (c : Color) (s : State) : Outcome :=
  complete 1 .ok (some (.channel (getG c))) s

/-- GETB (R106). -/
def execGetb (c : Color) (s : State) : Outcome :=
  complete 1 .ok (some (.channel (getB c))) s

end Sys2Proof.Machine
end

