-- ==== Sys2Proof/Machine/Transform.lean ====
section
/-! DEFINITION. The transform query TONAT (41_transform R125). -/

namespace Sys2Proof.Machine

/-- TONAT: `(r mod pixWidth, r div pixWidth)` of the native index `r` (R125). -/
def execTonat (d : Nat) (x y : Int) (s : State) : Outcome :=
  withDisplay d 2 s fun q =>
    match nativeIndex q.panel x y with
    | none => complete 2 .outOfBounds none s
    | some r => complete 2 .ok (some (.point (r % q.panel.pixWidth) (r / q.panel.pixWidth))) s

end Sys2Proof.Machine
end

