-- ==== Sys2Proof/Machine/Dispatch.lean ====
section
/-! DEFINITION. The dispatch of every command to its meaning (30_encoding R79). -/

namespace Sys2Proof.Machine

/-- The meaning of a command in a state. `step` guards it with the fault record (log entry 22). -/
def exec (i : Instr) (s : State) : Host.Outcome State Fault Refusal :=
  match i with
  | .seld k => Sys2Proof.Machine.execSeld k s
  | .selm mask => Sys2Proof.Machine.execSelm mask s
  | .sela => Sys2Proof.Machine.execSela s
  | .initall => Sys2Proof.Machine.execInitall s
  | .updall => Sys2Proof.Machine.execUpdall s
  | .updd k => Sys2Proof.Machine.execUpdd k s
  | .updm mask => Sys2Proof.Machine.execUpdm mask s
  | .init d => Sys2Proof.Machine.execInit d s
  | .upd d => Sys2Proof.Machine.execUpd d s
  | .pwr d on => Sys2Proof.Machine.execPwr d on s
  | .inv d on => Sys2Proof.Machine.execInv d on s
  | .clr d c => Sys2Proof.Machine.execClr d c s
  | .setpx d c x y => Sys2Proof.Machine.execSetpx d c x y s
  | .getpx d x y => Sys2Proof.Machine.execGetpx d x y s
  | .rect d c x1 y1 x2 y2 => Sys2Proof.Machine.execRect d c x1 y1 x2 y2 s
  | .img d id x y => Sys2Proof.Machine.execImg d id x y s
  | .glyph d cov th x y => Sys2Proof.Machine.execGlyph d cov th x y s
  | .tonat d x y => Sys2Proof.Machine.execTonat d x y s
  | .mkrgb r g b => Sys2Proof.Machine.execMkrgb r g b s
  | .getr c => Sys2Proof.Machine.execGetr c s
  | .getg c => Sys2Proof.Machine.execGetg c s
  | .getb c => Sys2Proof.Machine.execGetb c s

end Sys2Proof.Machine
end

