-- ==== Sys2Proof/Machine/Step.lean ====
section
/-! DEFINITION. One step of the block: fetch, decode and execute the command at `cp` (30_encoding R85,
60_exceptions R230), and where the host's one instruction is placed for a step. -/

namespace Sys2Proof.Machine

/-- One step. A faulted state has no further step (60_exceptions R236); the end of the stream is the end
of the run (70_reset R279); an illegal or truncated command takes its fault (R246, R247); any other
command is executed. -/
def step (s : State) : Host.Outcome State Fault Refusal :=
  match s.fault with
  | some r => .fault (.halted r.code)
  | none =>
    match fetch s with
    | .ended => .refused .endOfRun
    | .illegal => raiseIllegal s
    | .truncated len => raiseTruncated len s
    | .instr i => exec i s

/-- The state with the instruction of bits `w` in the stream at `cp` (log entry 2). -/
def State.withFetchWord (s : State) (nbits w : Nat) : State :=
  { s with stream := placeWords s.stream s.cp (tableWords nbits w) }

end Sys2Proof.Machine
end

