-- ==== Sys2Proof/Safety.lean ====
section
/-! DEFINITION. What claims speak of: the invariant of the block's state, the successful end of a run
and its observation (70_reset R279), and frames: what a command leaves unchanged. -/

namespace Sys2Proof.Machine

/-! ### The invariant -/

/-- A driver record between commands: never Initializing (10_state R24); before INIT the flags are unset
and after it they are set (R23, R25, R26; 43_panel_driver R183). -/
def Driver.Inv (d : Driver) : Prop :=
  (d.lifecycle = .uninitialized ∧ d.on = none ∧ d.inverted = none) ∨
    (d.lifecycle = .ready ∧ d.on.isSome ∧ d.inverted.isSome)

/-- A display: its driver record, and a frame buffer in canonical form inside
`pixWidth*pixHeight` cells (00_scope R14). -/
def Display.Inv (q : Display) : Prop :=
  q.driver.Inv ∧ q.fb.wf ∧ q.fb.within (cellCount q.panel)

/-- The chain has `L = N + 1` stages and outputs (10_state R29, R30); CLOCK is 0 or still unknown, never
1 between commands (R34); and the outputs are all unknown until a walk and all known after it
(44_bus_addressor R201, 60_exceptions R234). -/
def Chain.Inv (c : Chain) (n : Nat) : Prop :=
  c.sr.length = n + 1 ∧ c.out.length = n + 1 ∧ c.clock ≠ .high ∧
    (c.known = true ∨ ∀ o ∈ c.out, o = .unknown)

/-- The invariant of the whole state. -/
structure State.Inv (s : State) : Prop where
  chain : s.chain.Inv s.numSlots
  displays : ∀ k q, s.display k = some q → q.Inv
  pointer : s.cp ≤ s.stream.length
  record : ∀ r, s.fault = some r → r.cp = s.cp

/-- The configuration lies in the ranges of 00_scope R9. -/
def State.ConfigOk (s : State) : Prop :=
  1 ≤ s.numSlots ∧ s.numSlots ≤ 32 ∧ (∀ k p, s.panel k = some p → p.wf) ∧
    ∀ id img, s.cfg.image id = some img → img.wf

/-! ### End of a run (70_reset R279) -/

/-- A run has ended successfully. -/
def State.Done (s : State) : Prop := s.cp = s.stream.length ∧ s.fault = none

/-- What the end of a run shows. -/
structure Observation where
  results : List Result
  trace : List Event
  fb : List (Option Memory)
  disp : List (Option Driver)
  chain : Chain
  deriving DecidableEq, Repr

/-- The observation of a final state. -/
def State.observe (s : State) : Observation where
  results := s.results
  trace := s.trace
  fb := s.slots.map (Option.map (·.fb))
  disp := s.slots.map (Option.map (·.driver))
  chain := s.chain

/-! ### Frames -/

/-- The parameters of the step are the same: configuration, stream and the panel of every slot
(10_state R27, R42). -/
def SameParams (s t : State) : Prop :=
  t.cfg = s.cfg ∧ t.stream = s.stream ∧ t.numSlots = s.numSlots ∧ ∀ k, t.panel k = s.panel k

/-- Every driver record is the same. -/
def SameDrivers (s t : State) : Prop := ∀ k, t.driver k = s.driver k

/-- Every driver record but that of slot `d` is the same. -/
def SameDriversBut (d : Nat) (s t : State) : Prop := ∀ k, k ≠ d → t.driver k = s.driver k

/-- Every cell of every frame buffer reads the same. -/
def SameCells (s t : State) : Prop := ∀ k idx, t.cell k idx = s.cell k idx

/-- Every cell of every frame buffer but those of slot `d` reads the same. -/
def SameCellsBut (d : Nat) (s t : State) : Prop := ∀ k idx, k ≠ d → t.cell k idx = s.cell k idx

/-- The chain and the trace are the same: no pin driven, no delay, no SPI byte. -/
def SameBus (s t : State) : Prop := t.chain = s.chain ∧ t.trace = s.trace

/-- One result appended and `cp` advanced by `len` (10_state R21, R22). -/
def Completed (len : Nat) (st : Status) (v : Option Value) (s t : State) : Prop :=
  t.results = s.results ++ [⟨st, v⟩] ∧ t.cp = s.cp + len ∧ t.fault = s.fault

/-- Fault entry (60_exceptions R236): the record set, everything else as it was. -/
def TakesFault (code : FaultCode) (len : Nat) (s t : State) : Prop :=
  t = { s with fault := some ⟨code, s.cp, (s.stream.drop s.cp).take len⟩ }

/-! ### The spec's tables and sequences, as the statements use them -/

/-- An opcode that is not in 30_encoding R79's table (R80, first bullet). -/
def ReservedOpcode (op : Nat) : Prop :=
  op = 0x00 ∨ (0x08 ≤ op ∧ op ≤ 0x0F) ∨ (0x14 ≤ op ∧ op ≤ 0x1F) ∨ (0x27 ≤ op ∧ op ≤ 0x2F) ∨
    0x34 ≤ op

/-- A field R79 marks `= 0` is nonzero (30_encoding R80, second bullet). -/
def ReservedFieldSet (h : Word) : Prop :=
  let op := (h.extractLsb' 24 8).toNat
  (op ∈ [0x01, 0x02, 0x03, 0x04, 0x05, 0x06, 0x07] ∧ h.extractLsb' 0 16 ≠ 0) ∨
    (op ∈ [0x02, 0x03, 0x04, 0x05, 0x07] ∧ h.extractLsb' 16 8 ≠ 0) ∨
    (op ∈ [0x10, 0x11, 0x22, 0x26] ∧ h.extractLsb' 0 16 ≠ 0) ∨
    (op ∈ [0x12, 0x13] ∧ h.extractLsb' 1 15 ≠ 0) ∨
    (op ∈ [0x31, 0x32, 0x33] ∧ h.extractLsb' 16 8 ≠ 0)

/-- An illegal header word (30_encoding R80). -/
def IllegalHeader (h : Word) : Prop :=
  ReservedOpcode (h.extractLsb' 24 8).toNat ∨ ReservedFieldSet h

/-- `len` by opcode value (30_encoding R79). -/
def tableLen (h : Word) : Nat :=
  let op := (h.extractLsb' 24 8).toNat
  if op = 0x23 then 3 else if op ∈ [0x02, 0x07, 0x21, 0x22, 0x24, 0x25, 0x26] then 2 else 1

/-- The display operand of a format-D command (30_encoding R79). -/
def formatDOperand : Instr → Option Nat
  | .init d => some d
  | .upd d => some d
  | .pwr d _ => some d
  | .inv d _ => some d
  | .clr d _ => some d
  | .setpx d _ _ _ => some d
  | .getpx d _ _ => some d
  | .rect d _ _ _ _ _ => some d
  | .img d _ _ _ => some d
  | .glyph d _ _ _ _ => some d
  | .tonat d _ _ => some d
  | .seld _ => none
  | .selm _ => none
  | .sela => none
  | .initall => none
  | .updall => none
  | .updd _ => none
  | .updm _ => none
  | .mkrgb _ _ _ => none
  | .getr _ => none
  | .getg _ => none
  | .getb _ => none

/-- The display operand of a canvas or transform command (42_canvas, 41_transform). -/
def drawingOperand : Instr → Option Nat
  | .clr d _ => some d
  | .setpx d _ _ _ => some d
  | .getpx d _ _ => some d
  | .rect d _ _ _ _ _ => some d
  | .img d _ _ _ => some d
  | .glyph d _ _ _ _ => some d
  | .tonat d _ _ => some d
  | .init _ => none
  | .upd _ => none
  | .pwr _ _ => none
  | .inv _ _ => none
  | .seld _ => none
  | .selm _ => none
  | .sela => none
  | .initall => none
  | .updall => none
  | .updd _ => none
  | .updm _ => none
  | .mkrgb _ _ _ => none
  | .getr _ => none
  | .getg _ => none
  | .getb _ => none

/-- The walk commands, which reach the chain (20_memory R50). -/
def walkCommand : Instr → Bool
  | .seld _ => true
  | .selm _ => true
  | .sela => true
  | .initall => true
  | .updall => true
  | .updd _ => true
  | .updm _ => true
  | .init _ => false
  | .upd _ => false
  | .pwr _ _ => false
  | .inv _ _ => false
  | .clr _ _ => false
  | .setpx _ _ _ _ => false
  | .getpx _ _ _ => false
  | .rect _ _ _ _ _ _ => false
  | .img _ _ _ _ => false
  | .glyph _ _ _ _ _ => false
  | .tonat _ _ _ => false
  | .mkrgb _ _ _ => false
  | .getr _ => false
  | .getg _ => false
  | .getb _ => false

/-- The event sequence of a walk over `l` positions that shifts `bit j` for position `j`
(30_encoding R90). -/
def walkTrace (l : Nat) (bit : Nat → Bool) : List Event :=
  [.pin .clock false] ++
  (List.range l).reverse.flatMap (fun j =>
    [.pin .data (bit j), .pin .clock true, .pin .clock false]) ++
  [.pin .clock true, .pin .clock false]

/-- The walk of SELD: 0 at position `i`, 1 at every other (44_bus_addressor R202). -/
def seldTrace (l i : Nat) : List Event := walkTrace l fun j => decide (j ≠ i)

/-- The events of INIT to the selection `sel` (43_panel_driver R172). -/
def initTrace (cfg : Cfg) (p : Panel) (sel : List Nat) : List Event :=
  cfg.panelResetPulse.map pulseEvent ++
  [.cmd cfg.cmdCode.swreset sel, .delay cfg.tSwReset,
   .cmd cfg.cmdCode.slpout sel, .delay cfg.tSlpOut] ++
  (cfg.initTable p.variant).flatMap (fun e =>
    [.cmd e.cmd sel] ++ e.data.map (fun b => .data b sel) ++ [.delay e.ms]) ++
  [.cmd cfg.cmdCode.madctl sel, .data (madctl cfg p) sel]

/-- One window command and its four data bytes (43_panel_driver R175, 30_encoding R88). -/
def windowTrace (c : Byte) (first last : BitVec 16) (sel : List Nat) : List Event :=
  [.cmd c sel,
   .data (first.extractLsb' 8 8) sel, .data (first.extractLsb' 0 8) sel,
   .data (last.extractLsb' 8 8) sel, .data (last.extractLsb' 0 8) sel]

/-- The two data bytes of a Color (20_memory R51). -/
def colorTrace (order : ByteOrder) (c : Color) (sel : List Nat) : List Event :=
  match order with
  | .bigEndian => [.data (c.extractLsb' 8 8) sel, .data (c.extractLsb' 0 8) sel]
  | .littleEndian => [.data (c.extractLsb' 0 8) sel, .data (c.extractLsb' 8 8) sel]

/-- The events of UPD of display `q` to the selection `sel` (43_panel_driver R176). -/
def updTrace (cfg : Cfg) (q : Display) (sel : List Nat) : List Event :=
  (if q.driver.on = some false then [.cmd cfg.cmdCode.dispon sel] else []) ++
  windowTrace cfg.cmdCode.caset (BitVec.ofNat 16 q.panel.colOffset)
    (BitVec.ofNat 16 (q.panel.colOffset + q.panel.pixWidth - 1)) sel ++
  windowTrace cfg.cmdCode.raset (BitVec.ofNat 16 q.panel.rowOffset)
    (BitVec.ofNat 16 (q.panel.rowOffset + q.panel.pixHeight - 1)) sel ++
  [.cmd cfg.cmdCode.ramwr sel] ++
  (List.range (q.panel.pixWidth * q.panel.pixHeight)).flatMap fun idx =>
    colorTrace cfg.wireByteOrder (q.fb.read idx) sel

/-- An event that sends an SPI byte, command or data (10_state R36). -/
def Event.isByte : Event → Bool
  | .pin _ _ => false
  | .delay _ => false
  | .cmd _ _ => true
  | .data _ _ => true

/-- The driver record UPD leaves: on, if it was off (43_panel_driver R176). -/
def driverAfterUpd (d : Driver) : Driver :=
  if d.on = some false then { d with on := some true } else d

end Sys2Proof.Machine
end

