-- ==== Sys2Proof/Certificates/Slice0/Obligations.lean ====
section
/-! DEFINITION. The statements for the provers. A statement about a next state names in its docstring the
rule of spec/ it follows; where it rests on a choice of the model it names the log entry. -/

open Sys2Proof Sys2Proof.Machine

/-! ### Encoding and fetch -/

/-- Decoding the encoding of a well-formed command gives it back, whatever words follow
(30_encoding R79, R85). -/
def Obligations.DecodeOfEncodeGivesCommand : Prop :=
  ∀ (i : Instr) (rest : List Word), i.wellFormed = true → decode (encode i ++ rest) = .instr i

/-- A decoded command is well formed and its encoding is the words it was read from: no two words mean
the same command (30_encoding R79, R80, R85). -/
def Obligations.EncodeOfDecodeGivesWords : Prop :=
  ∀ (ws : List Word) (i : Instr), decode ws = .instr i →
    i.wellFormed = true ∧ encode i = ws.take i.len

/-- The decoder rejects exactly the illegal headers of 30_encoding R80; a legal header whose command
the stream does not hold whole is truncated (R82); any other decodes to a command of R79's length. -/
def Obligations.DecoderRejectsExactlyIllegalHeaders : Prop :=
  ∀ (h : Word) (rest : List Word),
    (decode (h :: rest) = .illegal ↔ IllegalHeader h) ∧
    (¬ IllegalHeader h → rest.length + 1 < tableLen h →
      decode (h :: rest) = .truncated (tableLen h)) ∧
    (¬ IllegalHeader h → tableLen h ≤ rest.length + 1 →
      ∃ i : Instr, decode (h :: rest) = .instr i ∧ i.len = tableLen h)

/-- Words the spec writes out decode to the commands they stand for (examples of 40_codec R103,
41_transform R125, 42_canvas R142, R145, R147, R150, 43_panel_driver R182, 44_bus_addressor R202,
R203). -/
def Obligations.WrittenOutWordsDecode : Prop :=
  decode [0x30123456] = .instr (.mkrgb 0x12 0x34 0x56) ∧
  decode [0x26000000, 0x00000000] = .instr (.tonat 0 0 0) ∧
  decode [0x2100F800, 0x00000000] = .instr (.setpx 0 0xF800 0 0) ∧
  decode [0x2300001F, 0x00140028, 0x00640032] = .instr (.rect 0 0x001F 20 40 100 50) ∧
  decode [0x24000001, 0x00000000] = .instr (.img 0 1 0 0) ∧
  decode [0x2500C840, 0x00000000] = .instr (.glyph 0 200 64 0 0) ∧
  decode [0x13000001] = .instr (.inv 0 true) ∧
  decode [0x01010000] = .instr (.seld 1) ∧
  decode [0x02000000, 0x00000005] = .instr (.selm 5)

/-- A step of an unfaulted state whose words at `cp` decode to a command is `exec` of that command, with
nothing around it (30_encoding R85, 60_exceptions R230). -/
def Obligations.StepRunsDecodedCommand : Prop :=
  ∀ (s : State) (i : Instr), s.fault = none → decode (s.stream.drop s.cp) = .instr i →
    step s = exec i s

/-- ILLEGAL_COMMAND and TRUNCATED_COMMAND: a step at such a header takes the fault, recording the header
word, or the words present, and changing nothing else (60_exceptions R246, R247, R236, R232). -/
def Obligations.StepTakesDecoderFaults : Prop :=
  ∀ (s : State) (h : Word) (rest : List Word), s.fault = none → s.stream.drop s.cp = h :: rest →
    (IllegalHeader h →
      step s = .next { s with fault := some ⟨.illegalCommand, s.cp, [h]⟩ }) ∧
    (¬ IllegalHeader h → rest.length + 1 < tableLen h →
      step s = .next { s with fault := some ⟨.truncatedCommand, s.cp, h :: rest⟩ })

/-- A step stops exactly where the block executes no command: in a faulted state (60_exceptions R236;
that the stop is the outcome `halted` is the model's choice, log entry 6) and at the end of the stream
(70_reset R279; that it is the refusal `endOfRun` is log entry 7). Anywhere else it goes on. -/
def Obligations.StepStopsExactlyWhenFaultedOrEnded : Prop :=
  ∀ s : State,
    (∀ r, s.fault = some r → step s = .fault (.halted r.code)) ∧
    (s.fault = none → s.stream.length ≤ s.cp → step s = .refused .endOfRun) ∧
    (s.fault = none → s.cp < s.stream.length → ∃ t, step s = .next t)

/-! ### Codec -/

/-- `makeRGB` in both forms of 40_codec R100; the bit positions are the spec's general knowledge
(30_encoding R91: log entry 20). -/
def Obligations.MakeRgbPacksTruncatedChannels : Prop :=
  ∀ r g b : Byte,
    makeRGB r g b =
      ((r.setWidth 16 &&& 0xF8) <<< 8) ||| ((g.setWidth 16 &&& 0xFC) <<< 3) |||
        (b.setWidth 16 >>> 3) ∧
    (makeRGB r g b).extractLsb' 11 5 = r.extractLsb' 3 5 ∧
    (makeRGB r g b).extractLsb' 5 6 = g.extractLsb' 2 6 ∧
    (makeRGB r g b).extractLsb' 0 5 = b.extractLsb' 3 5

/-- The inverse functions in both forms of 40_codec R101; the field positions are the spec's general
knowledge (30_encoding R91: log entry 20). -/
def Obligations.ChannelsAreZeroFilledFields : Prop :=
  ∀ c : Color,
    (getR c = c.extractLsb' 11 5 ++ 0b000#3 ∧ getR c = ((c >>> 8) &&& 0xF8).setWidth 8) ∧
    (getG c = c.extractLsb' 5 6 ++ 0b00#2 ∧ getG c = ((c >>> 3) &&& 0xFC).setWidth 8) ∧
    (getB c = c.extractLsb' 0 5 ++ 0b000#3 ∧ getB c = ((c <<< 3) &&& 0xF8).setWidth 8)

/-- The four codec laws of 40_codec R102, for the layout of log entry 20. -/
def Obligations.CodecLawsHold : Prop :=
  (∀ r g b : Byte, getR (makeRGB r g b) = r &&& 0xF8 ∧ getG (makeRGB r g b) = g &&& 0xFC ∧
    getB (makeRGB r g b) = b &&& 0xF8) ∧
  (∀ c : Color, makeRGB (getR c) (getG c) (getB c) = c) ∧
  (∀ r g b : Byte,
    let c := makeRGB r g b
    let c' := makeRGB (getR c) (getG c) (getB c)
    getR c' = getR c ∧ getG c' = getG c ∧ getB c' = getB c) ∧
  (∀ c : Color, ∃ r g b : Byte,
    (r &&& 0x07 = 0 ∧ g &&& 0x03 = 0 ∧ b &&& 0x07 = 0 ∧ makeRGB r g b = c) ∧
    ∀ r' g' b' : Byte, r' &&& 0x07 = 0 → g' &&& 0x03 = 0 → b' &&& 0x07 = 0 →
      makeRGB r' g' b' = c → r' = r ∧ g' = g ∧ b' = b)

/-- MKRGB, GETR, GETG and GETB complete in every state with their value, and change `results` and `cp`
alone (40_codec R103-R106; the layout of a Color is log entry 20). -/
def Obligations.CodecCommandsReturnTheirValue : Prop :=
  ∀ s : State,
    (∀ r g b : Byte, exec (.mkrgb r g b) s =
      .next { s with
        results := s.results ++ [⟨.ok, some (.color (makeRGB r g b))⟩], cp := s.cp + 1 }) ∧
    (∀ c : Color, exec (.getr c) s =
      .next { s with results := s.results ++ [⟨.ok, some (.channel (getR c))⟩], cp := s.cp + 1 }) ∧
    (∀ c : Color, exec (.getg c) s =
      .next { s with results := s.results ++ [⟨.ok, some (.channel (getG c))⟩], cp := s.cp + 1 }) ∧
    (∀ c : Color, exec (.getb c) s =
      .next { s with results := s.results ++ [⟨.ok, some (.channel (getB c))⟩], cp := s.cp + 1 })

/-- The chroma-key band in field terms, MAGENTA in it (42_canvas R146; the field positions and the value
of MAGENTA are log entry 20). -/
def Obligations.ChromaKeyBandInFieldTerms : Prop :=
  (∀ c : Color, transparent c = true ↔
    28 ≤ (c.extractLsb' 11 5).toNat ∧ (c.extractLsb' 5 6).toNat ≤ 4 ∧
      28 ≤ (c.extractLsb' 0 5).toNat) ∧
  transparent 0xF81F = true

/-! ### Coordinate transform -/

/-- `toNative` restricted to the logical grid is a bijection onto the native grid, and `toLogical` is
its inverse on all integers, both ways (41_transform R123, R124). -/
def Obligations.TransformIsBijectionOfGrids : Prop :=
  (∀ p : Panel,
    (∀ x y : Int, inLogical p x y → inNative p (nativeOf p x y).1 (nativeOf p x y).2) ∧
    ∀ X Y : Int, inNative p X Y → ∃ x y : Int,
      (inLogical p x y ∧ nativeOf p x y = (X, Y)) ∧
      ∀ x' y' : Int, inLogical p x' y' → nativeOf p x' y' = (X, Y) → x' = x ∧ y' = y) ∧
  ∀ (r : Rotation) (m : Mirror) (pw ph x y : Int),
    toLogical r m pw ph (toNative r m pw ph x y).1 (toNative r m pw ph x y).2 = (x, y) ∧
    toNative r m pw ph (toLogical r m pw ph x y).1 (toLogical r m pw ph x y).2 = (x, y)

/-- The rotations, the mirrors and their order, written out (41_transform R120); and the checked transform
answers `Y * pixWidth + X` for every coordinate of the logical grid, the native check never rejecting
one, and rejects every other (R121, R122). -/
def Obligations.NativeIndexAcceptsExactlyTheLogicalGrid : Prop :=
  (∀ pw ph x y : Int,
    rot .r0 pw ph x y = (x, y) ∧
    rot .r90 pw ph x y = (pw - y - 1, x) ∧
    rot .r180 pw ph x y = (pw - x - 1, ph - y - 1) ∧
    rot .r270 pw ph x y = (y, ph - x - 1) ∧
    mir .none pw ph x y = (x, y) ∧
    mir .horizontal pw ph x y = (pw - x - 1, y) ∧
    mir .vertical pw ph x y = (x, ph - y - 1) ∧
    mir .origin pw ph x y = (pw - x - 1, ph - y - 1) ∧
    ∀ (r : Rotation) (m : Mirror),
      toNative r m pw ph x y = mir m pw ph (rot r pw ph x y).1 (rot r pw ph x y).2) ∧
  ∀ (p : Panel) (x y : Int),
    nativeIndex p x y =
      if 0 ≤ x ∧ x < logicalWidth p ∧ 0 ≤ y ∧ y < logicalHeight p then
        some ((toNative p.rotation p.mirror p.pixWidth p.pixHeight x y).2 * p.pixWidth +
          (toNative p.rotation p.mirror p.pixWidth p.pixHeight x y).1).toNat
      else none

/-- Distinct logical pixels have distinct cells, and every cell below `pixWidth*pixHeight` is the cell
of a logical pixel (41_transform R123, 20_memory R53). -/
def Obligations.LogicalPixelsAndCellsCorrespond : Prop :=
  ∀ p : Panel,
    (∀ (x y x' y' : Int) (r : Nat), nativeIndex p x y = some r → nativeIndex p x' y' = some r →
      x = x' ∧ y = y') ∧
    ∀ idx : Nat, (∃ x y : Int, nativeIndex p x y = some idx) ↔ idx < p.pixWidth * p.pixHeight

/-- TONAT on a present display: the native coordinate of a logical pixel, OUT_OF_BOUNDS for any other
coordinate, and nothing else changed (41_transform R125). -/
def Obligations.TonatReturnsNativeCoordinate : Prop :=
  ∀ (s : State) (d : Nat) (q : Display) (x y : Int), s.display d = some q →
    exec (.tonat d x y) s =
      if inLogical q.panel x y then
        .next { s with
          results := s.results ++
            [⟨.ok, some (.point (nativeOf q.panel x y).1.toNat (nativeOf q.panel x y).2.toNat)⟩]
          cp := s.cp + 2 }
      else
        .next { s with results := s.results ++ [⟨.outOfBounds, none⟩], cp := s.cp + 2 }

/-! ### Checks that precede every effect -/

/-- BAD_INDEX: a format-D command with `d >= N`, SELD or UPDD with `i >= N`, SELM or UPDM with a mask
bit at or above N take the fault and nothing else (60_exceptions R235, R236). -/
def Obligations.IndexBeyondSlotsIsBadIndex : Prop :=
  ∀ s : State,
    (∀ (i : Instr) (d : Nat), formatDOperand i = some d → s.numSlots ≤ d →
      exec i s = .next { s with fault := some ⟨.badIndex, s.cp, s.wordsAt i.len⟩ }) ∧
    (∀ k : Nat, s.numSlots ≤ k →
      exec (.seld k) s = .next { s with fault := some ⟨.badIndex, s.cp, s.wordsAt 1⟩ } ∧
      exec (.updd k) s = .next { s with fault := some ⟨.badIndex, s.cp, s.wordsAt 1⟩ }) ∧
    ∀ (mask : Word) (j : Nat), s.numSlots ≤ j → mask.getLsbD j = true →
      exec (.selm mask) s = .next { s with fault := some ⟨.badIndex, s.cp, s.wordsAt 2⟩ } ∧
      exec (.updm mask) s = .next { s with fault := some ⟨.badIndex, s.cp, s.wordsAt 2⟩ }

/-- ABSENT: a command whose own display is an absent slot completes with ABSENT and no value and has no
other effect; of UPDD the walk happens: its events, the chain it leaves and, where the chain has `N + 1`
stages, the slot alone selected with CLOCK low (60_exceptions R249). -/
def Obligations.AbsentSlotReturnsAbsent : Prop :=
  ∀ (s : State) (d : Nat), d < s.numSlots → s.display d = none →
    (∀ i : Instr, formatDOperand i = some d →
      exec i s =
        .next { s with results := s.results ++ [⟨.absent, none⟩], cp := s.cp + i.len }) ∧
    ∃ t, exec (.updd d) s = .next t ∧ Completed 1 .absent none s t ∧
      t.trace = s.trace ++ seldTrace (s.numSlots + 1) d ∧
      t.chain = (seldTrace (s.numSlots + 1) d).foldl Chain.apply s.chain ∧
      (s.chain.sr.length = s.numSlots + 1 → t.sel = some [d] ∧ t.chain.clock = .low) ∧
      t.slots = s.slots ∧ t.cfg = s.cfg ∧ t.stream = s.stream

/-- NOT_INITIALIZED: UPD, PWR and INV on a present display that is not Ready, and UPDALL, UPDD and UPDM
when one of their present targets is not Ready, take the fault and nothing else (60_exceptions R248;
UPDM with no mask bit at or above N, since BAD_INDEX comes first, R233). -/
def Obligations.DriverCommandBeforeInitIsNotInitialized : Prop :=
  ∀ (s : State) (d : Nat) (q : Display), s.display d = some q → q.driver.lifecycle ≠ .ready →
    (∀ on : Bool,
      exec (.upd d) s = .next { s with fault := some ⟨.notInitialized, s.cp, s.wordsAt 1⟩ } ∧
      exec (.pwr d on) s = .next { s with fault := some ⟨.notInitialized, s.cp, s.wordsAt 1⟩ } ∧
      exec (.inv d on) s = .next { s with fault := some ⟨.notInitialized, s.cp, s.wordsAt 1⟩ }) ∧
    exec .updall s = .next { s with fault := some ⟨.notInitialized, s.cp, s.wordsAt 1⟩ } ∧
    exec (.updd d) s = .next { s with fault := some ⟨.notInitialized, s.cp, s.wordsAt 1⟩ } ∧
    ∀ mask : Word, mask.getLsbD d = true → (∀ j, s.numSlots ≤ j → mask.getLsbD j = false) →
      exec (.updm mask) s = .next { s with fault := some ⟨.notInitialized, s.cp, s.wordsAt 2⟩ }

/-- CHAIN_UNKNOWN: INIT of a present display, and UPD, PWR and INV of a Ready one, take the fault and
nothing else while some output is unknown; every output is unknown after reset (60_exceptions
R234). -/
def Obligations.SpiByteWithUnknownChainFaults : Prop :=
  (∀ (s : State) (d : Nat) (q : Display), s.display d = some q → .unknown ∈ s.chain.out →
    exec (.init d) s = .next { s with fault := some ⟨.chainUnknown, s.cp, s.wordsAt 1⟩ } ∧
    (q.driver.lifecycle = .ready → ∀ on : Bool,
      exec (.upd d) s = .next { s with fault := some ⟨.chainUnknown, s.cp, s.wordsAt 1⟩ } ∧
      exec (.pwr d on) s = .next { s with fault := some ⟨.chainUnknown, s.cp, s.wordsAt 1⟩ } ∧
      exec (.inv d on) s = .next { s with fault := some ⟨.chainUnknown, s.cp, s.wordsAt 1⟩ })) ∧
  ∀ (cfg : Cfg) (panels : List (Option Panel)) (fbInit : Nat → Memory) (stream : List Word),
    (State.resetWith cfg panels fbInit stream).chain.out =
      List.replicate (panels.length + 1) .unknown

/-- An IMG whose image id has no image takes BAD_IMAGE and nothing else (20_memory R56). -/
def Obligations.MissingImageIsBadImage : Prop :=
  ∀ (s : State) (d : Nat) (q : Display) (id : BitVec 16) (x y : Int),
    s.display d = some q → s.cfg.image id = none →
    exec (.img d id x y) s = .next { s with fault := some ⟨.badImage, s.cp, s.wordsAt 2⟩ }

/-! ### Canvas -/

/-- CLR on a present display sets every cell of its frame buffer and nothing else, whatever its
orientation (42_canvas R140). -/
def Obligations.ClrFillsEveryCell : Prop :=
  ∀ (s : State) (d : Nat) (q : Display) (c : Color), s.display d = some q →
    ∃ t, exec (.clr d c) s = .next t ∧ Completed 1 .ok none s t ∧
      (∀ idx, t.cell d idx =
        if idx < q.panel.pixWidth * q.panel.pixHeight then some c else s.cell d idx) ∧
      SameCellsBut d s t ∧ SameDrivers s t ∧ SameBus s t ∧ SameParams s t

/-- SETPX on a present display: inside the logical grid it writes the cell of the pixel and no other;
outside it writes nothing and reports OUT_OF_BOUNDS (42_canvas R141, R142). -/
def Obligations.SetpxWritesOnePixel : Prop :=
  ∀ (s : State) (d : Nat) (q : Display) (c : Color) (x y : Int), s.display d = some q →
    (inLogical q.panel x y →
      ∃ t, exec (.setpx d c x y) s = .next t ∧ Completed 2 .ok none s t ∧
        (∀ idx, t.cell d idx =
          if some idx = nativeIndex q.panel x y then some c else s.cell d idx) ∧
        SameCellsBut d s t ∧ SameDrivers s t ∧ SameBus s t ∧ SameParams s t) ∧
    (¬ inLogical q.panel x y →
      exec (.setpx d c x y) s =
        .next { s with results := s.results ++ [⟨.outOfBounds, none⟩], cp := s.cp + 2 })

/-- GETPX on a present display: inside the logical grid it returns the Color of the pixel's cell,
outside OUT_OF_BOUNDS with no value; it changes `results` and `cp` alone (42_canvas R143, R144). -/
def Obligations.GetpxReadsOnePixel : Prop :=
  ∀ (s : State) (d : Nat) (q : Display) (x y : Int), s.display d = some q →
    (inLogical q.panel x y → ∃ r, nativeIndex q.panel x y = some r ∧
      exec (.getpx d x y) s =
        .next { s with
          results := s.results ++ [⟨.ok, some (.color (q.fb.read r))⟩], cp := s.cp + 2 }) ∧
    (¬ inLogical q.panel x y →
      exec (.getpx d x y) s =
        .next { s with results := s.results ++ [⟨.outOfBounds, none⟩], cp := s.cp + 2 })

/-- The source's property: a pixel set is the pixel read (42_canvas R144's example, for every
orientation, coordinate of the grid and Color). -/
def Obligations.GetpxAfterSetpxReturnsTheColor : Prop :=
  ∀ (s : State) (d : Nat) (q : Display) (c : Color) (x y : Int), s.display d = some q →
    inLogical q.panel x y →
    ∃ t u, exec (.setpx d c x y) s = .next t ∧ exec (.getpx d x y) t = .next u ∧
      u.results = s.results ++ [⟨.ok, none⟩, ⟨.ok, some (.color c)⟩]

/-- RECT on a present display sets exactly the logical pixels with `x1 <= x <= x2` and `y1 <= y < y2`,
inclusive in x and half-open in y, reports OK however much it clips, and changes nothing else
(42_canvas R145). -/
def Obligations.RectFillsInclusiveXHalfOpenY : Prop :=
  ∀ (s : State) (d : Nat) (q : Display) (c : Color) (x1 y1 x2 y2 : Int), s.display d = some q →
    ∃ t, exec (.rect d c x1 y1 x2 y2) s = .next t ∧ Completed 3 .ok none s t ∧
      (∀ (x y : Int) (idx : Nat), nativeIndex q.panel x y = some idx →
        t.cell d idx =
          if x1 ≤ x ∧ x ≤ x2 ∧ y1 ≤ y ∧ y < y2 then some c else s.cell d idx) ∧
      (∀ idx, q.panel.pixWidth * q.panel.pixHeight ≤ idx → t.cell d idx = s.cell d idx) ∧
      SameCellsBut d s t ∧ SameDrivers s t ∧ SameBus s t ∧ SameParams s t

/-- IMG on a present display draws image pixel `(ix, iy)` at `(xStart + ix, yStart + iy)` unless it is
transparent, leaves every other pixel as it was, reports OK and changes nothing else
(42_canvas R147). -/
def Obligations.ImgDrawsOpaquePixels : Prop :=
  ∀ (s : State) (d : Nat) (q : Display) (id : BitVec 16) (img : Image) (xStart yStart : Int),
    s.display d = some q → s.cfg.image id = some img →
    ∃ t, exec (.img d id xStart yStart) s = .next t ∧ Completed 2 .ok none s t ∧
      (∀ (ix iy : Nat) (c : Color) (idx : Nat), ix < img.w → iy < img.h →
        img.pix[iy * img.w + ix]? = some c →
        nativeIndex q.panel (xStart + ix) (yStart + iy) = some idx →
        t.cell d idx = if transparent c then s.cell d idx else some c) ∧
      (∀ (x y : Int) (idx : Nat), nativeIndex q.panel x y = some idx →
        (x < xStart ∨ xStart + img.w ≤ x ∨ y < yStart ∨ yStart + img.h ≤ y) →
        t.cell d idx = s.cell d idx) ∧
      (∀ idx, q.panel.pixWidth * q.panel.pixHeight ≤ idx → t.cell d idx = s.cell d idx) ∧
      SameCellsBut d s t ∧ SameDrivers s t ∧ SameBus s t ∧ SameParams s t

/-- An image made only of chroma-key colors leaves the state as it was but for `results` and `cp`, down
to the list that holds the frame buffer (42_canvas R147, corner case). -/
def Obligations.ChromaKeyImageLeavesBufferUnchanged : Prop :=
  ∀ (s : State) (d : Nat) (q : Display) (id : BitVec 16) (img : Image) (xStart yStart : Int),
    s.display d = some q → s.cfg.image id = some img → (∀ c ∈ img.pix, transparent c = true) →
    exec (.img d id xStart yStart) s =
      .next { s with results := s.results ++ [⟨.ok, none⟩], cp := s.cp + 2 }

/-- GLYPH on a present display: inside the logical grid, the pixel becomes the gray
`makeRGB(cov, cov, cov)` if `coverage > thresh` and keeps its Color if not; outside, OUT_OF_BOUNDS;
nothing else changes (42_canvas R150; the packing of `makeRGB` is log entry 20). -/
def Obligations.GlyphCutsOverAtThreshold : Prop :=
  ∀ (s : State) (d : Nat) (q : Display) (cov th : Byte) (x y : Int), s.display d = some q →
    (inLogical q.panel x y →
      ∃ t, exec (.glyph d cov th x y) s = .next t ∧ Completed 2 .ok none s t ∧
        (∀ idx, t.cell d idx =
          if some idx = nativeIndex q.panel x y ∧ th.toNat < cov.toNat then
            some (makeRGB cov cov cov)
          else s.cell d idx) ∧
        SameCellsBut d s t ∧ SameDrivers s t ∧ SameBus s t ∧ SameParams s t) ∧
    (¬ inLogical q.panel x y →
      exec (.glyph d cov th x y) s =
        .next { s with results := s.results ++ [⟨.outOfBounds, none⟩], cp := s.cp + 2 })

/-- No canvas or transform command drives a pin, sends a byte, changes a driver record, another
display's buffer or a parameter, in any outcome (42_canvas header; 41_transform R125). -/
def Obligations.DrawingCommandsKeepBusAndDrivers : Prop :=
  ∀ (i : Instr) (d : Nat) (s t : State), drawingOperand i = some d → exec i s = .next t →
    SameBus s t ∧ SameDrivers s t ∧ SameCellsBut d s t ∧ SameParams s t

/-- No canvas or transform command depends on the chain or the trace: with another chain and trace it
does the same and carries them along (42_canvas header). -/
def Obligations.DrawingCommandsIgnoreTheBus : Prop :=
  ∀ (i : Instr) (d : Nat) (s t : State) (c : Chain) (tr : List Event), drawingOperand i = some d →
    exec i s = .next t →
    exec i { s with chain := c, trace := tr } = .next { t with chain := c, trace := tr }

/-! ### Panel driver -/

/-- INIT of a present display with the chain known: its event sequence, all tagged `Sel(S)`, and the
record Ready, on, not inverted; nothing else changes, the frame buffer included. Allowed in every
lifecycle state (43_panel_driver R172; the layout of the scan-direction byte is log entry 20). -/
def Obligations.InitRunsTheSequenceAndEndsReady : Prop :=
  ∀ (s : State) (d : Nat) (q : Display) (sel : List Nat), s.display d = some q →
    s.sel = some sel →
    ∃ t, exec (.init d) s = .next t ∧ Completed 1 .ok none s t ∧
      t.trace = s.trace ++ initTrace s.cfg q.panel sel ∧
      t.driver d = some ⟨.ready, some true, some false⟩ ∧ SameDriversBut d s t ∧
      t.chain = s.chain ∧ SameCells s t ∧ SameParams s t

/-- UPD of a Ready display with the chain known: DISPON if it was off, the window, and every cell in
index order, all tagged `Sel(S)`; `on` set if it was false; nothing else changes
(43_panel_driver R176; the format of the window bytes is log entry 20). -/
def Obligations.UpdStreamsWindowAndCells : Prop :=
  ∀ (s : State) (d : Nat) (q : Display) (sel : List Nat), s.display d = some q →
    q.driver.lifecycle = .ready → s.sel = some sel →
    ∃ t, exec (.upd d) s = .next t ∧ Completed 1 .ok none s t ∧
      t.trace = s.trace ++ updTrace s.cfg q sel ∧
      t.driver d = some (driverAfterUpd q.driver) ∧ SameDriversBut d s t ∧
      t.chain = s.chain ∧ SameCells s t ∧ SameParams s t

/-- The number of SPI events of an UPD: `(on ? 0 : 1) + 5 + 5 + 1 + 2*pixWidth*pixHeight`
(43_panel_driver R176, corner case). -/
def Obligations.UpdEmitsCountedSpiEvents : Prop :=
  ∀ (s t : State) (d : Nat) (q : Display) (b : Bool), s.display d = some q →
    q.driver = ⟨.ready, some b, q.driver.inverted⟩ → s.chain.known = true →
    exec (.upd d) s = .next t →
    t.trace.length = s.trace.length +
      ((if b then 0 else 1) + 5 + 5 + 1 + 2 * (q.panel.pixWidth * q.panel.pixHeight))

/-- Each cell of an UPD is sent as its two wire bytes, in index order: the `idx`-th cell makes the data
events `2*idx` and `2*idx + 1` of the last `2*pixWidth*pixHeight` events, the high byte first with
big-endian order and the low byte first with little-endian (30_encoding R89, 20_memory R51). -/
def Obligations.PixelsGoOutAsWireBytesInIndexOrder : Prop :=
  ∀ (s t : State) (d : Nat) (q : Display) (sel : List Nat) (idx : Nat), s.display d = some q →
    q.driver.lifecycle = .ready → s.sel = some sel →
    exec (.upd d) s = .next t → idx < q.panel.pixWidth * q.panel.pixHeight →
    let pixels := t.trace.drop (t.trace.length - 2 * (q.panel.pixWidth * q.panel.pixHeight))
    let high := (q.fb.read idx).extractLsb' 8 8
    let low := (q.fb.read idx).extractLsb' 0 8
    (s.cfg.wireByteOrder = .bigEndian →
      pixels[2 * idx]? = some (.data high sel) ∧ pixels[2 * idx + 1]? = some (.data low sel)) ∧
    (s.cfg.wireByteOrder = .littleEndian →
      pixels[2 * idx]? = some (.data low sel) ∧ pixels[2 * idx + 1]? = some (.data high sel))

/-- PWR of a Ready display with the chain known: DISPON or DISPOFF is sent whatever the flag held, and
the flag set to the argument, not flipped; nothing else changes (43_panel_driver R180). -/
def Obligations.PwrSendsAndSetsOn : Prop :=
  ∀ (s : State) (d : Nat) (q : Display) (sel : List Nat) (on : Bool), s.display d = some q →
    q.driver.lifecycle = .ready → s.sel = some sel →
    ∃ t, exec (.pwr d on) s = .next t ∧ Completed 1 .ok none s t ∧
      t.trace = s.trace ++ [.cmd (if on then s.cfg.cmdCode.dispon else s.cfg.cmdCode.dispoff) sel] ∧
      t.driver d = some { q.driver with on := some on } ∧ SameDriversBut d s t ∧
      t.chain = s.chain ∧ SameCells s t ∧ SameParams s t

/-- INV of a Ready display with the chain known: the physical command is INVON for `on` under direct
polarity and for `not on` under the opposite one, and the flag holds the argument; nothing else
changes (43_panel_driver R182). -/
def Obligations.InvSendsByPolarityAndSetsInverted : Prop :=
  ∀ (s : State) (d : Nat) (q : Display) (sel : List Nat) (on : Bool), s.display d = some q →
    q.driver.lifecycle = .ready → s.sel = some sel →
    ∃ t, exec (.inv d on) s = .next t ∧ Completed 1 .ok none s t ∧
      t.trace = s.trace ++
        [.cmd (if (s.cfg.invertPolarity q.panel.variant = .direct ↔ on = true) then
          s.cfg.cmdCode.invon else s.cfg.cmdCode.invoff) sel] ∧
      t.driver d = some { q.driver with inverted := some on } ∧ SameDriversBut d s t ∧
      t.chain = s.chain ∧ SameCells s t ∧ SameParams s t

/-- The scan-direction byte is `(scan << 6) | (swap << 5) | (bgr << 3)` (30_encoding R87, whose bit
positions the spec marks as general knowledge: log entry 20). -/
def Obligations.MadctlByteLayout : Prop :=
  ∀ (cfg : Cfg) (p : Panel),
    let so := cfg.scanOrderOf p.variant p.rotation p.mirror
    madctl cfg p =
      (so.scan.setWidth 8 <<< 6) ||| ((if so.swap then 1#8 else 0#8) <<< 5) |||
        ((if p.bgr then 1#8 else 0#8) <<< 3)

/-! ### Chain and bus commands -/

/-- The edge rule: CLOCK driven to 1 from a known 0 latches the stages into the outputs and shifts DATA
in; driving CLOCK to 0, driving DATA, and driving CLOCK to 1 from 1 or unknown change neither
(10_state R32, the spec's own device, of which 93 U22 makes only the walk's postcondition normative: log
entry 15). -/
def Obligations.ClockRiseLatchesAndShifts : Prop :=
  ∀ (c : Chain) (b : Bool),
    (c.clock = .low →
      (c.apply (.pin .clock true)).out = c.sr ∧
      (∀ k, 1 ≤ k → k < c.sr.length → (c.apply (.pin .clock true)).sr[k]? = c.sr[k - 1]?) ∧
      (0 < c.sr.length → (c.apply (.pin .clock true)).sr[0]? = some c.data) ∧
      (c.apply (.pin .clock true)).sr.length = c.sr.length) ∧
    (c.clock ≠ .low → (c.apply (.pin .clock true)).sr = c.sr ∧
      (c.apply (.pin .clock true)).out = c.out) ∧
    ((c.apply (.pin .clock false)).sr = c.sr ∧ (c.apply (.pin .clock false)).out = c.out) ∧
    ((c.apply (.pin .data b)).sr = c.sr ∧ (c.apply (.pin .data b)).out = c.out)

/-- The walk postcondition of 44_bus_addressor R201, from every chain of the walk's length, whatever its
levels, unknown ones included. -/
def Obligations.WalkLeavesTargetInOutputs : Prop :=
  ∀ (s : State) (t0 : Bool) (ts : List Bool), s.chain.sr.length = (t0 :: ts).length →
    (walk (t0 :: ts) s).chain =
      { out := (t0 :: ts).map Level.ofBool
        clock := .low
        data := Level.ofBool t0
        sr := (t0 :: (t0 :: ts).dropLast).map Level.ofBool } ∧
    (walk (t0 :: ts) s).sel =
      some ((List.range (t0 :: ts).length).filter fun j => (t0 :: ts)[j]? = some false)

/-- A walk emits exactly the sequence of 30_encoding R90: `3L + 3` events and `L + 1` rising CLOCK
edges, the bit of the last position first. -/
def Obligations.WalkEmitsTheBitStream : Prop :=
  ∀ (s : State) (t : List Bool),
    (walk t s).trace = s.trace ++ walkTrace t.length (fun j => t.getD j true) ∧
    (walkTrace t.length (fun j => t.getD j true)).length = 3 * t.length + 3 ∧
    ((walkTrace t.length (fun j => t.getD j true)).filter
      (fun e => e = .pin .clock true)).length = t.length + 1

/-- SELD of a slot below N, absent or present: its walk, after which exactly position `i` is selected
and CLOCK is low; nothing but chain, trace, `results` and `cp` changes (44_bus_addressor R202). -/
def Obligations.SeldSelectsOnePosition : Prop :=
  ∀ (s : State) (i : Nat), i < s.numSlots → s.chain.sr.length = s.numSlots + 1 →
    ∃ t, exec (.seld i) s = .next t ∧ Completed 1 .ok none s t ∧
      t.trace = s.trace ++ seldTrace (s.numSlots + 1) i ∧
      t.chain.out =
        (List.range (s.numSlots + 1)).map (fun j => if j = i then Level.low else Level.high) ∧
      t.sel = some [i] ∧ t.chain.clock = .low ∧ SameDrivers s t ∧ SameCells s t ∧ SameParams s t

/-- SELM with no mask bit at or above N: its walk, after which exactly the masked slots are selected and
the phantom position never is (44_bus_addressor R203). -/
def Obligations.SelmSelectsTheMask : Prop :=
  ∀ (s : State) (mask : Word), (∀ j, s.numSlots ≤ j → mask.getLsbD j = false) →
    s.chain.sr.length = s.numSlots + 1 →
    ∃ t, exec (.selm mask) s = .next t ∧ Completed 2 .ok none s t ∧
      t.trace = s.trace ++ walkTrace (s.numSlots + 1) (fun j => !mask.getLsbD j) ∧
      t.chain.out = (List.range (s.numSlots + 1)).map
        (fun j => if mask.getLsbD j then Level.low else Level.high) ∧
      t.sel = some ((List.range s.numSlots).filter mask.getLsbD) ∧ t.chain.clock = .low ∧
      SameDrivers s t ∧ SameCells s t ∧ SameParams s t

/-- SELA: its walk, after which every position is selected, the phantom one too
(44_bus_addressor R204). -/
def Obligations.SelaSelectsEveryPosition : Prop :=
  ∀ s : State, s.chain.sr.length = s.numSlots + 1 →
    ∃ t, exec .sela s = .next t ∧ Completed 1 .ok none s t ∧
      t.trace = s.trace ++ walkTrace (s.numSlots + 1) (fun _ => false) ∧
      t.chain.out = List.replicate (s.numSlots + 1) Level.low ∧
      t.sel = some (List.range (s.numSlots + 1)) ∧ t.chain.clock = .low ∧
      SameDrivers s t ∧ SameCells s t ∧ SameParams s t

/-- INITALL: the global reset pulse, then for every index in order its walk and, for a present slot, the
INIT sequence tagged with that slot alone; every present display ends Ready, on, not inverted; the last
slot is selected; frame buffers are kept (44_bus_addressor R205). -/
def Obligations.InitallInitialisesEveryPresentDisplay : Prop :=
  ∀ s : State, s.chain.sr.length = s.numSlots + 1 →
    ∃ t, exec .initall s = .next t ∧ Completed 1 .ok none s t ∧
      t.trace = s.trace ++ s.cfg.globalResetPulse.map pulseEvent ++
        (List.range s.numSlots).flatMap (fun i =>
          seldTrace (s.numSlots + 1) i ++
            match s.display i with
            | none => []
            | some q => initTrace s.cfg q.panel [i]) ∧
      (∀ k, t.driver k = (s.driver k).map fun _ => ⟨.ready, some true, some false⟩) ∧
      (0 < s.numSlots → t.sel = some [s.numSlots - 1] ∧ t.chain.clock = .low) ∧
      SameCells s t ∧ SameParams s t

/-- UPDALL with every present display Ready: for every index in order its walk and, for a present slot,
the UPD events tagged with that slot alone; no frame buffer changes (44_bus_addressor R206; the format of
the window bytes is log entry 20). -/
def Obligations.UpdallUpdatesEveryPresentDisplay : Prop :=
  ∀ s : State, s.chain.sr.length = s.numSlots + 1 →
    (∀ k q, s.display k = some q → q.driver.lifecycle = .ready) →
    ∃ t, exec .updall s = .next t ∧ Completed 1 .ok none s t ∧
      t.trace = s.trace ++
        (List.range s.numSlots).flatMap (fun i =>
          seldTrace (s.numSlots + 1) i ++
            match s.display i with
            | none => []
            | some q => updTrace s.cfg q [i]) ∧
      (∀ k, t.driver k = (s.driver k).map driverAfterUpd) ∧
      (0 < s.numSlots → t.sel = some [s.numSlots - 1] ∧ t.chain.clock = .low) ∧
      SameCells s t ∧ SameParams s t

/-- UPDD of a Ready display: its walk, the UPD events of the old frame, and then every cell of its buffer
holds the flip-clear color; no other buffer or record changes (44_bus_addressor R207; window bytes: log
entry 20). -/
def Obligations.UpddUpdatesThenClears : Prop :=
  ∀ (s : State) (i : Nat) (q : Display), s.display i = some q → q.driver.lifecycle = .ready →
    s.chain.sr.length = s.numSlots + 1 →
    ∃ t, exec (.updd i) s = .next t ∧ Completed 1 .ok none s t ∧
      t.trace = s.trace ++ seldTrace (s.numSlots + 1) i ++ updTrace s.cfg q [i] ∧
      (∀ idx, t.cell i idx =
        if idx < q.panel.pixWidth * q.panel.pixHeight then some s.cfg.flipClearColor
        else s.cell i idx) ∧
      SameCellsBut i s t ∧ t.driver i = some (driverAfterUpd q.driver) ∧ SameDriversBut i s t ∧
      t.sel = some [i] ∧ t.chain.clock = .low ∧ SameParams s t

/-- UPDM with no mask bit at or above N and every masked present display Ready: one walk and one update
per mask bit in ascending order, each masked present buffer cleared after it is streamed; every other
buffer and record unchanged. Afterwards the highest masked slot alone is selected and CLOCK is low; a zero
mask leaves the chain unchanged (44_bus_addressor R208, R201; window bytes: log entry 20). -/
def Obligations.UpdmUpdatesThenClearsTheMask : Prop :=
  ∀ (s : State) (mask : Word), (∀ j, s.numSlots ≤ j → mask.getLsbD j = false) →
    (∀ k q, mask.getLsbD k = true → s.display k = some q → q.driver.lifecycle = .ready) →
    s.chain.sr.length = s.numSlots + 1 →
    ∃ t, exec (.updm mask) s = .next t ∧ Completed 2 .ok none s t ∧
      t.trace = s.trace ++
        ((List.range s.numSlots).filter mask.getLsbD).flatMap (fun j =>
          seldTrace (s.numSlots + 1) j ++
            match s.display j with
            | none => []
            | some q => updTrace s.cfg q [j]) ∧
      (∀ (k : Nat) (q : Display), s.display k = some q → mask.getLsbD k = true → ∀ idx,
        t.cell k idx =
          if idx < q.panel.pixWidth * q.panel.pixHeight then some s.cfg.flipClearColor
          else s.cell k idx) ∧
      (∀ k idx, mask.getLsbD k = false → t.cell k idx = s.cell k idx) ∧
      (∀ k, t.driver k = if mask.getLsbD k then (s.driver k).map driverAfterUpd else s.driver k) ∧
      (∀ j, mask.getLsbD j = true → (∀ k, j < k → mask.getLsbD k = false) →
        t.sel = some [j] ∧ t.chain.clock = .low) ∧
      (mask = 0 → t.chain = s.chain) ∧ SameParams s t

/-- Broadcast: the SPI bytes of INIT, UPD, PWR and INV reach the panel of every present slot in `Sel(S)`
and of no other, in order, and only the record of the command's own display can change
(44_bus_addressor R211, 10_state R37; window and scan-direction bytes: log entry 20). -/
def Obligations.PanelBytesReachExactlyTheSelectedPanels : Prop :=
  ∀ (s : State) (i : Instr) (d : Nat) (q : Display) (sel : List Nat) (bytes : List Event),
    s.display d = some q → s.sel = some sel →
    ((i = .init d ∧ bytes = (initTrace s.cfg q.panel sel).filter Event.isByte) ∨
      (q.driver.lifecycle = .ready ∧
        ((i = .upd d ∧ bytes = updTrace s.cfg q sel) ∨
          (∃ on, i = .pwr d on ∧
            bytes = [.cmd (if on then s.cfg.cmdCode.dispon else s.cfg.cmdCode.dispoff) sel]) ∨
          ∃ on, i = .inv d on ∧
            bytes = [.cmd (if (s.cfg.invertPolarity q.panel.variant = .direct ↔ on = true) then
              s.cfg.cmdCode.invon else s.cfg.cmdCode.invoff) sel]))) →
    ∃ t, exec i s = .next t ∧ SameDriversBut d s t ∧
      ∀ k, t.panelTrace k = s.panelTrace k ++
        if (s.display k).isSome ∧ k ∈ sel then bytes else []

/-! ### The whole machine -/

/-- Every command completes with one result and `cp` advanced by its length, or takes a fault with no
other effect, in every state; there is no third outcome (60_exceptions R230, R233, R236). -/
def Obligations.EveryCommandCompletesOrFaults : Prop :=
  ∀ (i : Instr) (s : State), ∃ t, exec i s = .next t ∧
    ((∃ st v, Completed i.len st v s t) ∨ ∃ code, TakesFault code i.len s t)

/-- Which commands raise which fault (60_exceptions R232, column 'raised by'). -/
def Obligations.FaultsComeOnlyFromTheirCommands : Prop :=
  ∀ (i : Instr) (s t : State) (r : FaultRecord), exec i s = .next t → s.fault = none →
    t.fault = some r →
    match r.code with
    | .illegalCommand => False
    | .badIndex => (formatDOperand i).isSome ∨ (∃ k, i = .seld k) ∨ (∃ m, i = .selm m) ∨
        (∃ k, i = .updd k) ∨ ∃ m, i = .updm m
    | .notInitialized => (∃ d, i = .upd d) ∨ (∃ d on, i = .pwr d on) ∨ (∃ d on, i = .inv d on) ∨
        i = .updall ∨ (∃ k, i = .updd k) ∨ ∃ m, i = .updm m
    | .chainUnknown => (∃ d, i = .init d) ∨ (∃ d, i = .upd d) ∨ (∃ d on, i = .pwr d on) ∨
        ∃ d on, i = .inv d on
    | .badImage => ∃ d id x y, i = .img d id x y
    | .truncatedCommand => False
    | .halInitFailure => False

/-- Which commands report OUT_OF_BOUNDS and ABSENT, never with a value (60_exceptions R231). -/
def Obligations.StatusesComeOnlyFromTheirCommands : Prop :=
  ∀ (i : Instr) (s t : State) (st : Status) (v : Option Value), exec i s = .next t →
    t.results = s.results ++ [⟨st, v⟩] →
    (st = .outOfBounds → v = none ∧ t.slots = s.slots ∧
      ((∃ d c x y, i = .setpx d c x y) ∨ (∃ d x y, i = .getpx d x y) ∨
        (∃ d a b x y, i = .glyph d a b x y) ∨ ∃ d x y, i = .tonat d x y)) ∧
    (st = .absent → v = none ∧ t.slots = s.slots ∧ ((formatDOperand i).isSome ∨ ∃ k, i = .updd k))

/-- The command pointer: it starts at 0, a completed command advances it by its length and never past
the stream, a fault leaves it (10_state R21). -/
def Obligations.CommandPointerAdvancesByLength : Prop :=
  (∀ (cfg : Cfg) (panels : List (Option Panel)) (fbInit : Nat → Memory) (stream : List Word),
    (State.resetWith cfg panels fbInit stream).cp = 0) ∧
  ∀ s t : State, step s = .next t →
    (t.fault = none → ∃ i, decode (s.stream.drop s.cp) = .instr i ∧ t.cp = s.cp + i.len ∧
      s.cp < t.cp ∧ t.cp ≤ s.stream.length) ∧
    (t.fault ≠ none → t.cp = s.cp)

/-- The configuration, the stream and every slot's panel record are never written (10_state R27,
R42). -/
def Obligations.ParametersAreNeverWritten : Prop :=
  ∀ s t : State, step s = .next t → SameParams s t

/-- The trace and the results only grow (20_memory R50, 10_state R22). -/
def Obligations.TraceAndResultsOnlyGrow : Prop :=
  ∀ s t : State, step s = .next t →
    (∃ evs, t.trace = s.trace ++ evs) ∧
      (t.results = s.results ∨ ∃ r, t.results = s.results ++ [r])

/-- The chain changes only through the walk commands (10_state R40, 20_memory R50). -/
def Obligations.OnlyWalkCommandsMoveTheChain : Prop :=
  ∀ (i : Instr) (s t : State), walkCommand i = false → exec i s = .next t → t.chain = s.chain

/-- The only changes of a driver record: INIT and INITALL make it Ready, on, not inverted; on a Ready
display the updates set `on`, PWR sets `on` and INV sets `inverted` to the argument; no record appears
or disappears (43_panel_driver R183, 10_state R25, R26). -/
def Obligations.DriverRecordsChangeOnlyByTheirCommands : Prop :=
  ∀ (i : Instr) (s t : State) (k : Nat), exec i s = .next t →
    match s.driver k with
    | none => t.driver k = none
    | some d => ∃ d', t.driver k = some d' ∧
        (d' = d ∨
          ((i = .init k ∨ i = .initall) ∧ d' = ⟨.ready, some true, some false⟩) ∨
          (d.lifecycle = .ready ∧
            (((i = .upd k ∨ i = .updall ∨ i = .updd k ∨
                ∃ m : Word, i = .updm m ∧ m.getLsbD k = true) ∧ d' = { d with on := some true }) ∨
              (∃ on, i = .pwr k on ∧ d' = { d with on := some on }) ∨
              ∃ on, i = .inv k on ∧ d' = { d with inverted := some on })))

/-- The invariant of the state is kept by every step: the chain has `N + 1` stages and outputs, its
outputs are all unknown or all known and CLOCK is not left high; no display is left Initializing and the
flags are unset exactly before INIT; every frame buffer is in canonical form (log entry 5) and inside its
cells; `cp` lies in the stream and a fault record names it (10_state R24, R29, R30, R34, 00_scope
R14). -/
def Obligations.EveryStepKeepsTheInvariant : Prop :=
  ∀ s t : State, s.Inv → step s = .next t → t.Inv

/-- The reset state satisfies the invariant, for every configuration, topology, stream and frame-buffer
contents in canonical form (log entry 5) inside the frame buffers (10_state R39). -/
def Obligations.ResetSatisfiesTheInvariant : Prop :=
  ∀ (cfg : Cfg) (panels : List (Option Panel)) (fbInit : Nat → Memory) (stream : List Word),
    (∀ k p, panels[k]? = some (some p) →
      (fbInit k).wf ∧ (fbInit k).within (p.pixWidth * p.pixHeight)) →
    (State.resetWith cfg panels fbInit stream).Inv

/-- Reset sets every field to its value in 10_state R39, for every configuration, topology, stream and
`fbInit`, and execution starts at word 0 of that stream; a failed HAL initialisation leaves the block
faulted and it executes no command (70_reset R260, R262; that the step is then the outcome `halted` is
the model's choice, log entry 6). -/
def Obligations.ResetValues : Prop :=
  ∀ (cfg : Cfg) (panels : List (Option Panel)) (fbInit : Nat → Memory) (stream : List Word),
    let s := State.resetWith cfg panels fbInit stream
    s.cfg = cfg ∧ s.stream = stream ∧ s.cp = 0 ∧ fetch s = decode stream ∧ s.results = [] ∧
    s.trace = [] ∧ s.numSlots = panels.length ∧
    s.chain = ⟨List.replicate (panels.length + 1) .unknown,
      List.replicate (panels.length + 1) .unknown, .unknown, .unknown⟩ ∧
    (∀ k, s.display k =
      (panels.getD k none).map fun p => ⟨p, ⟨.uninitialized, none, none⟩, fbInit k⟩) ∧
    (cfg.halInitOk = true → s.fault = none) ∧
    (cfg.halInitOk = false → s.fault = some ⟨.halInitFailure, 0, []⟩ ∧
      step s = .fault (.halted .halInitFailure))
end

