-- ==== Sys2Proof/Laws/Memory.lean ====
section
/-! SUPPORT. Frame-buffer memory: read after write, the canonical form kept by every operation, memories
in canonical form equal when they read equal, and `fill` as the loop of writes it stands for. -/

namespace Sys2Proof.Machine

/-! ### Reading -/

@[simp] theorem Memory.read_nil (i : Nat) : Memory.read [] i = Memory.unlisted := rfl

theorem Memory.read_cons (j : Nat) (c : Color) (m : Memory) (i : Nat) :
    Memory.read ((j, c) :: m) i = if j = i then c else Memory.read m i := rfl

/-- An index that no cell lists reads as unlisted. -/
theorem Memory.read_of_not_listed {m : Memory} {i : Nat} (h : ∀ a ∈ m, a.1 ≠ i) :
    m.read i = Memory.unlisted := by
  induction m with
  | nil => rfl
  | cons a m ih =>
    rw [Memory.read_cons, if_neg (h a (by simp))]
    exact ih fun b hb => h b (by simp [hb])

/-- Reading past a part that does not list the index. -/
theorem Memory.read_append {m m' : Memory} {i : Nat} (h : ∀ a ∈ m, a.1 ≠ i) :
    Memory.read (m ++ m') i = Memory.read m' i := by
  induction m with
  | nil => rfl
  | cons a m ih =>
    rw [List.cons_append, Memory.read_cons, if_neg (h a (by simp))]
    exact ih fun b hb => h b (by simp [hb])

/-- Reading a value that an unlisted cell cannot hold from the first part. -/
theorem Memory.read_append_left {m m' : Memory} {i : Nat} {c : Color} (h : m.read i = c)
    (hc : c ≠ Memory.unlisted) : Memory.read (m ++ m') i = c := by
  induction m with
  | nil => exact absurd h.symm hc
  | cons a m ih =>
    rw [List.cons_append, Memory.read_cons]
    rw [Memory.read_cons] at h
    split
    · next ha => simpa [ha] using h
    · next ha => exact ih (by simpa [ha] using h)

/-- A memory whose cells all hold the unlisted value reads as unlisted. -/
theorem Memory.read_of_all_unlisted {m : Memory} (h : ∀ a ∈ m, a.2 = Memory.unlisted) (i : Nat) :
    m.read i = Memory.unlisted := by
  induction m with
  | nil => rfl
  | cons a m ih =>
    rw [Memory.read_cons, ih fun b hb => h b (by simp [hb]), h a (by simp), ite_self]

/-- Reading an index that passes a filter on indices. -/
theorem Memory.read_filter (m : Memory) (p : Nat → Prop) [DecidablePred p] (i : Nat) :
    Memory.read (m.filter fun a => p a.1) i = if p i then m.read i else Memory.unlisted := by
  induction m with
  | nil => simp
  | cons a m ih =>
    obtain ⟨j, c⟩ := a
    by_cases hj : p j
    · rw [List.filter_cons_of_pos (by simpa using hj), Memory.read_cons, Memory.read_cons, ih]
      by_cases hji : j = i
      · subst hji
        simp [hj]
      · simp [hji]
    · rw [List.filter_cons_of_neg (by simpa using hj), ih, Memory.read_cons]
      by_cases hji : j = i
      · subst hji
        simp [hj]
      · simp [hji]

/-! ### Writing -/

theorem Memory.read_insert (m : Memory) (i : Nat) (c : Color) (j : Nat) :
    (Memory.insert i c m).read j = if i = j then c else m.read j := by
  induction m with
  | nil => rfl
  | cons a m ih =>
    obtain ⟨k, x⟩ := a
    simp only [Memory.insert]
    split
    · rfl
    · split
      · next h =>
        subst h
        rw [Memory.read_cons, Memory.read_cons]
        split <;> rfl
      · next h =>
        rw [Memory.read_cons, Memory.read_cons, ih]
        by_cases hk : k = j
        · subst hk
          simp [h]
        · simp [hk]

theorem Memory.read_erase (m : Memory) (i j : Nat) :
    (Memory.erase i m).read j = if i = j then Memory.unlisted else m.read j := by
  unfold Memory.erase
  rw [Memory.read_filter m (fun a => a ≠ i)]
  by_cases h : i = j
  · simp [h]
  · simp [h, Ne.symm h]

/-- A cell after a write: the value at the index written, as before anywhere else. -/
theorem Memory.read_write (m : Memory) (i : Nat) (c : Color) (j : Nat) :
    (m.write i c).read j = if i = j then c else m.read j := by
  unfold Memory.write
  split
  · next h => rw [Memory.read_erase, h]
  · exact Memory.read_insert m i c j

@[simp] theorem Memory.read_write_same (m : Memory) (i : Nat) (c : Color) :
    (m.write i c).read i = c := by
  simp [Memory.read_write]

theorem Memory.read_write_ne (m : Memory) {i j : Nat} (c : Color) (h : i ≠ j) :
    (m.write i c).read j = m.read j := by
  simp [Memory.read_write, h]

/-! ### The canonical form -/

theorem Memory.mem_insert {m : Memory} {i : Nat} {c : Color} {a : Nat × Color}
    (h : a ∈ Memory.insert i c m) : a = (i, c) ∨ a ∈ m := by
  induction m with
  | nil => simpa [Memory.insert] using h
  | cons b m ih =>
    simp only [Memory.insert] at h
    split at h
    · simpa using h
    · split at h
      · rcases List.mem_cons.mp h with h | h
        · exact .inl h
        · exact .inr (by simp [h])
      · rcases List.mem_cons.mp h with h | h
        · exact .inr (by simp [h])
        · rcases ih h with h | h
          · exact .inl h
          · exact .inr (by simp [h])

theorem Memory.insert_sorted {m : Memory} (h : m.Pairwise (fun a b => a.1 < b.1)) (i : Nat)
    (c : Color) : (Memory.insert i c m).Pairwise (fun a b => a.1 < b.1) := by
  induction m with
  | nil => simp [Memory.insert]
  | cons b m ih =>
    obtain ⟨hb, hm⟩ := List.pairwise_cons.mp h
    simp only [Memory.insert]
    split
    · next hi =>
      refine List.pairwise_cons.mpr ⟨fun a ha => ?_, h⟩
      rcases List.mem_cons.mp ha with ha | ha
      · simpa [ha] using hi
      · exact Nat.lt_trans hi (hb a ha)
    · split
      · next hi =>
        refine List.pairwise_cons.mpr ⟨fun a ha => ?_, hm⟩
        have := hb a ha
        simpa [hi] using this
      · next h1 h2 =>
        refine List.pairwise_cons.mpr ⟨fun a ha => ?_, ih hm⟩
        rcases Memory.mem_insert ha with ha | ha
        · have : b.1 < i := by omega
          simpa [ha] using this
        · exact hb a ha

/-- A write keeps the canonical form. -/
theorem Memory.write_wf {m : Memory} (h : m.wf) (i : Nat) (c : Color) : (m.write i c).wf := by
  unfold Memory.write
  split
  · exact ⟨h.1.filter _, fun a ha => h.2 a (List.mem_of_mem_filter ha)⟩
  · next hc =>
    refine ⟨Memory.insert_sorted h.1 i c, fun a ha => ?_⟩
    rcases Memory.mem_insert ha with ha | ha
    · simpa [ha] using hc
    · exact h.2 a ha

/-- A write inside the frame buffer keeps the memory inside it. -/
theorem Memory.write_within {m : Memory} {n i : Nat} (h : m.within n) (hi : i < n) (c : Color) :
    (m.write i c).within n := by
  intro a ha
  unfold Memory.write at ha
  split at ha
  · exact h a (List.mem_of_mem_filter ha)
  · rcases Memory.mem_insert ha with ha | ha
    · simpa [ha] using hi
    · exact h a ha

theorem Memory.nil_wf : Memory.wf [] := by
  simp [Memory.wf]

/-- Reading past every listed index. -/
theorem Memory.read_of_lt {m : Memory} {i : Nat} (h : ∀ a ∈ m, i < a.1) :
    m.read i = Memory.unlisted :=
  Memory.read_of_not_listed fun a ha => Nat.ne_of_gt (h a ha)

/-- Two memories in canonical form that read the same are the same list: equal memories are equal
data. -/
theorem Memory.eq_of_read_eq {m m' : Memory} (h : m.wf) (h' : m'.wf)
    (hr : ∀ i, m.read i = m'.read i) : m = m' := by
  induction m generalizing m' with
  | nil =>
    cases m' with
    | nil => rfl
    | cons b m' =>
      have := hr b.1
      rw [Memory.read_nil, Memory.read_cons, if_pos rfl] at this
      exact absurd this.symm (h'.2 b (by simp))
  | cons a m ih =>
    obtain ⟨i, c⟩ := a
    obtain ⟨ha, hm⟩ := List.pairwise_cons.mp h.1
    have hc : c ≠ Memory.unlisted := h.2 (i, c) (by simp)
    cases m' with
    | nil =>
      have := hr i
      rw [Memory.read_nil, Memory.read_cons, if_pos rfl] at this
      exact absurd this hc
    | cons b m' =>
      obtain ⟨j, x⟩ := b
      obtain ⟨hb, hm'⟩ := List.pairwise_cons.mp h'.1
      have hx : x ≠ Memory.unlisted := h'.2 (j, x) (by simp)
      have hij : i = j := by
        rcases Nat.lt_trichotomy i j with hlt | heq | hgt
        · have := hr i
          rw [Memory.read_cons, if_pos rfl, Memory.read_cons, if_neg (by omega),
            Memory.read_of_lt fun b hb' => Nat.lt_trans hlt (hb b hb')] at this
          exact absurd this hc
        · exact heq
        · have := hr j
          rw [Memory.read_cons, if_neg (by omega), Memory.read_cons, if_pos rfl,
            Memory.read_of_lt fun b hb' => Nat.lt_trans hgt (ha b hb')] at this
          exact absurd this.symm hx
      subst hij
      have hcx : c = x := by
        have := hr i
        rwa [Memory.read_cons, if_pos rfl, Memory.read_cons, if_pos rfl] at this
      subst hcx
      have : m = m' := by
        refine ih ⟨hm, fun a ha' => h.2 a (by simp [ha'])⟩ ⟨hm', fun a ha' => h'.2 a (by simp [ha'])⟩
          fun k => ?_
        have := hr k
        rw [Memory.read_cons, Memory.read_cons] at this
        by_cases hk : i = k
        · subst hk
          rw [Memory.read_of_lt ha, Memory.read_of_lt hb]
        · simpa [hk] using this
      rw [this]

/-! ### `fill` -/

theorem Memory.read_range (n : Nat) (c : Color) (i : Nat) (hi : i < n) :
    Memory.read ((List.range n).map fun k => (k, c)) i = c := by
  induction n with
  | zero => omega
  | succ n ih =>
    rw [List.range_succ, List.map_append]
    by_cases h : i < n
    · by_cases hc : c = Memory.unlisted
      · rw [hc]
        refine Memory.read_of_all_unlisted (fun a ha => ?_) i
        simp only [List.mem_append, List.mem_map, List.mem_range, List.map_cons, List.map_nil,
          List.mem_singleton] at ha
        rcases ha with ⟨k, -, rfl⟩ | rfl <;> rfl
      · exact Memory.read_append_left (ih h) hc
    · have : i = n := by omega
      subst this
      rw [Memory.read_append]
      · simp [Memory.read_cons]
      · intro a ha
        simp only [List.mem_map, List.mem_range] at ha
        obtain ⟨k, hk, rfl⟩ := ha
        exact Nat.ne_of_lt hk

/-- A cell after a fill of the first `n` cells. -/
theorem Memory.read_fill (m : Memory) (n : Nat) (c : Color) (i : Nat) :
    (m.fill n c).read i = if i < n then c else m.read i := by
  unfold Memory.fill
  have hf : Memory.read (m.filter fun a => n ≤ a.1) i =
      if n ≤ i then m.read i else Memory.unlisted :=
    Memory.read_filter m (fun a => n ≤ a) i
  by_cases hc : c = Memory.unlisted
  · rw [if_pos hc, List.nil_append, hf]
    by_cases hi : i < n
    · simp [hi, Nat.not_le.mpr hi, hc]
    · simp [hi, Nat.not_lt.mp hi]
  · rw [if_neg hc]
    by_cases hi : i < n
    · rw [if_pos hi]
      exact Memory.read_append_left (Memory.read_range n c i hi) hc
    · rw [if_neg hi, Memory.read_append, hf, if_pos (Nat.not_lt.mp hi)]
      intro a ha
      simp only [List.mem_map, List.mem_range] at ha
      obtain ⟨k, hk, rfl⟩ := ha
      exact Nat.ne_of_lt (Nat.lt_of_lt_of_le hk (Nat.not_lt.mp hi))

/-- A fill keeps the canonical form. -/
theorem Memory.fill_wf {m : Memory} (h : m.wf) (n : Nat) (c : Color) : (m.fill n c).wf := by
  unfold Memory.fill
  have hrest : Memory.wf (m.filter fun a => n ≤ a.1) :=
    ⟨h.1.filter _, fun a ha => h.2 a (List.mem_of_mem_filter ha)⟩
  split
  · simpa using hrest
  · next hc =>
    refine ⟨List.pairwise_append.mpr ⟨?_, hrest.1, ?_⟩, fun a ha => ?_⟩
    · exact List.pairwise_map.mpr List.pairwise_lt_range
    · intro a ha b hb
      simp only [List.mem_map, List.mem_range] at ha
      obtain ⟨k, hk, rfl⟩ := ha
      have := (List.mem_filter.mp hb).2
      simp only [decide_eq_true_eq] at this
      exact Nat.lt_of_lt_of_le hk this
    · rcases List.mem_append.mp ha with ha | ha
      · simp only [List.mem_map, List.mem_range] at ha
        obtain ⟨k, -, rfl⟩ := ha
        exact hc
      · exact hrest.2 a ha

/-- A fill of the whole frame buffer keeps the memory inside it. -/
theorem Memory.fill_within {m : Memory} {n : Nat} (h : m.within n) (c : Color) :
    (m.fill n c).within n := by
  intro a ha
  unfold Memory.fill at ha
  rcases List.mem_append.mp ha with ha | ha
  · split at ha
    · simp at ha
    · simp only [List.mem_map, List.mem_range] at ha
      obtain ⟨k, hk, rfl⟩ := ha
      exact hk
  · exact h a (List.mem_of_mem_filter ha)

/-- A cell after a loop of writes of one Color. -/
theorem Memory.read_foldl_write (l : List Nat) (c : Color) (m : Memory) (i : Nat) :
    (l.foldl (fun m k => m.write k c) m).read i = if i ∈ l then c else m.read i := by
  induction l generalizing m with
  | nil => simp
  | cons k l ih =>
    rw [List.foldl_cons, ih, Memory.read_write]
    by_cases hk : k = i
    · subst hk
      simp
    · by_cases hl : i ∈ l <;> simp [hl, hk, Ne.symm hk]

theorem Memory.foldl_write_wf (l : List Nat) (c : Color) {m : Memory} (h : m.wf) :
    (l.foldl (fun m k => m.write k c) m).wf := by
  induction l generalizing m with
  | nil => exact h
  | cons k l ih => exact ih (Memory.write_wf h k c)

/-- `fill` is the loop of writes of 42_canvas R140 (log entry 13). -/
theorem Memory.fill_eq_writes {m : Memory} (h : m.wf) (n : Nat) (c : Color) :
    m.fill n c = (List.range n).foldl (fun m k => m.write k c) m := by
  refine Memory.eq_of_read_eq (Memory.fill_wf h n c) (Memory.foldl_write_wf _ c h) fun i => ?_
  rw [Memory.read_fill, Memory.read_foldl_write]
  simp

@[simp] theorem Memory.cells_length (m : Memory) (n : Nat) : (m.cells n).length = n := by
  simp [Memory.cells]

end Sys2Proof.Machine
end

