-- ==== Sys2Proof/Laws/State.lean ====
section
/-! SUPPORT. One lemma per field per state update, true by `rfl`, and what each update does to the
accessors `display`, `panel`, `driver`, `fb` and `cell`. -/

namespace Sys2Proof.Machine

/-! ### `emit` -/

@[simp] theorem State.emit_cfg (s : State) (evs : List Event) :
    (s.emit evs).cfg = s.cfg := rfl

@[simp] theorem State.emit_stream (s : State) (evs : List Event) :
    (s.emit evs).stream = s.stream := rfl

@[simp] theorem State.emit_cp (s : State) (evs : List Event) :
    (s.emit evs).cp = s.cp := rfl

@[simp] theorem State.emit_results (s : State) (evs : List Event) :
    (s.emit evs).results = s.results := rfl

@[simp] theorem State.emit_slots (s : State) (evs : List Event) :
    (s.emit evs).slots = s.slots := rfl

@[simp] theorem State.emit_chain (s : State) (evs : List Event) :
    (s.emit evs).chain = evs.foldl Chain.apply s.chain := rfl

@[simp] theorem State.emit_fault (s : State) (evs : List Event) :
    (s.emit evs).fault = s.fault := rfl

@[simp] theorem State.emit_trace (s : State) (evs : List Event) :
    (s.emit evs).trace = s.trace ++ evs := rfl

/-! ### `updDisplay` -/

@[simp] theorem State.updDisplay_cfg (s : State) (k : Nat) (f : Display → Display) :
    (s.updDisplay k f).cfg = s.cfg := rfl

@[simp] theorem State.updDisplay_stream (s : State) (k : Nat) (f : Display → Display) :
    (s.updDisplay k f).stream = s.stream := rfl

@[simp] theorem State.updDisplay_cp (s : State) (k : Nat) (f : Display → Display) :
    (s.updDisplay k f).cp = s.cp := rfl

@[simp] theorem State.updDisplay_results (s : State) (k : Nat) (f : Display → Display) :
    (s.updDisplay k f).results = s.results := rfl

@[simp] theorem State.updDisplay_slots (s : State) (k : Nat) (f : Display → Display) :
    (s.updDisplay k f).slots = s.slots.modify k (Option.map f) := rfl

@[simp] theorem State.updDisplay_chain (s : State) (k : Nat) (f : Display → Display) :
    (s.updDisplay k f).chain = s.chain := rfl

@[simp] theorem State.updDisplay_fault (s : State) (k : Nat) (f : Display → Display) :
    (s.updDisplay k f).fault = s.fault := rfl

@[simp] theorem State.updDisplay_trace (s : State) (k : Nat) (f : Display → Display) :
    (s.updDisplay k f).trace = s.trace := rfl

/-! ### `setFb` -/

@[simp] theorem State.setFb_cfg (s : State) (k : Nat) (m : Memory) :
    (s.setFb k m).cfg = s.cfg := rfl

@[simp] theorem State.setFb_stream (s : State) (k : Nat) (m : Memory) :
    (s.setFb k m).stream = s.stream := rfl

@[simp] theorem State.setFb_cp (s : State) (k : Nat) (m : Memory) :
    (s.setFb k m).cp = s.cp := rfl

@[simp] theorem State.setFb_results (s : State) (k : Nat) (m : Memory) :
    (s.setFb k m).results = s.results := rfl

@[simp] theorem State.setFb_chain (s : State) (k : Nat) (m : Memory) :
    (s.setFb k m).chain = s.chain := rfl

@[simp] theorem State.setFb_fault (s : State) (k : Nat) (m : Memory) :
    (s.setFb k m).fault = s.fault := rfl

@[simp] theorem State.setFb_trace (s : State) (k : Nat) (m : Memory) :
    (s.setFb k m).trace = s.trace := rfl

/-! ### `setDriver` -/

@[simp] theorem State.setDriver_cfg (s : State) (k : Nat) (d : Driver) :
    (s.setDriver k d).cfg = s.cfg := rfl

@[simp] theorem State.setDriver_stream (s : State) (k : Nat) (d : Driver) :
    (s.setDriver k d).stream = s.stream := rfl

@[simp] theorem State.setDriver_cp (s : State) (k : Nat) (d : Driver) :
    (s.setDriver k d).cp = s.cp := rfl

@[simp] theorem State.setDriver_results (s : State) (k : Nat) (d : Driver) :
    (s.setDriver k d).results = s.results := rfl

@[simp] theorem State.setDriver_chain (s : State) (k : Nat) (d : Driver) :
    (s.setDriver k d).chain = s.chain := rfl

@[simp] theorem State.setDriver_fault (s : State) (k : Nat) (d : Driver) :
    (s.setDriver k d).fault = s.fault := rfl

@[simp] theorem State.setDriver_trace (s : State) (k : Nat) (d : Driver) :
    (s.setDriver k d).trace = s.trace := rfl

/-! ### `setLifecycle` -/

@[simp] theorem State.setLifecycle_cfg (s : State) (k : Nat) (l : Lifecycle) :
    (s.setLifecycle k l).cfg = s.cfg := rfl

@[simp] theorem State.setLifecycle_stream (s : State) (k : Nat) (l : Lifecycle) :
    (s.setLifecycle k l).stream = s.stream := rfl

@[simp] theorem State.setLifecycle_cp (s : State) (k : Nat) (l : Lifecycle) :
    (s.setLifecycle k l).cp = s.cp := rfl

@[simp] theorem State.setLifecycle_results (s : State) (k : Nat) (l : Lifecycle) :
    (s.setLifecycle k l).results = s.results := rfl

@[simp] theorem State.setLifecycle_chain (s : State) (k : Nat) (l : Lifecycle) :
    (s.setLifecycle k l).chain = s.chain := rfl

@[simp] theorem State.setLifecycle_fault (s : State) (k : Nat) (l : Lifecycle) :
    (s.setLifecycle k l).fault = s.fault := rfl

@[simp] theorem State.setLifecycle_trace (s : State) (k : Nat) (l : Lifecycle) :
    (s.setLifecycle k l).trace = s.trace := rfl

/-! ### `setOn` -/

@[simp] theorem State.setOn_cfg (s : State) (k : Nat) (on : Bool) :
    (s.setOn k on).cfg = s.cfg := rfl

@[simp] theorem State.setOn_stream (s : State) (k : Nat) (on : Bool) :
    (s.setOn k on).stream = s.stream := rfl

@[simp] theorem State.setOn_cp (s : State) (k : Nat) (on : Bool) :
    (s.setOn k on).cp = s.cp := rfl

@[simp] theorem State.setOn_results (s : State) (k : Nat) (on : Bool) :
    (s.setOn k on).results = s.results := rfl

@[simp] theorem State.setOn_chain (s : State) (k : Nat) (on : Bool) :
    (s.setOn k on).chain = s.chain := rfl

@[simp] theorem State.setOn_fault (s : State) (k : Nat) (on : Bool) :
    (s.setOn k on).fault = s.fault := rfl

@[simp] theorem State.setOn_trace (s : State) (k : Nat) (on : Bool) :
    (s.setOn k on).trace = s.trace := rfl

/-! ### `setInverted` -/

@[simp] theorem State.setInverted_cfg (s : State) (k : Nat) (on : Bool) :
    (s.setInverted k on).cfg = s.cfg := rfl

@[simp] theorem State.setInverted_stream (s : State) (k : Nat) (on : Bool) :
    (s.setInverted k on).stream = s.stream := rfl

@[simp] theorem State.setInverted_cp (s : State) (k : Nat) (on : Bool) :
    (s.setInverted k on).cp = s.cp := rfl

@[simp] theorem State.setInverted_results (s : State) (k : Nat) (on : Bool) :
    (s.setInverted k on).results = s.results := rfl

@[simp] theorem State.setInverted_chain (s : State) (k : Nat) (on : Bool) :
    (s.setInverted k on).chain = s.chain := rfl

@[simp] theorem State.setInverted_fault (s : State) (k : Nat) (on : Bool) :
    (s.setInverted k on).fault = s.fault := rfl

@[simp] theorem State.setInverted_trace (s : State) (k : Nat) (on : Bool) :
    (s.setInverted k on).trace = s.trace := rfl

/-! ### `finish` -/

@[simp] theorem State.finish_cfg (s : State) (n : Nat) (st : Status) (v : Option Value) :
    (s.finish n st v).cfg = s.cfg := rfl

@[simp] theorem State.finish_stream (s : State) (n : Nat) (st : Status) (v : Option Value) :
    (s.finish n st v).stream = s.stream := rfl

@[simp] theorem State.finish_cp (s : State) (n : Nat) (st : Status) (v : Option Value) :
    (s.finish n st v).cp = s.cp + n := rfl

@[simp] theorem State.finish_results (s : State) (n : Nat) (st : Status) (v : Option Value) :
    (s.finish n st v).results = s.results ++ [⟨st, v⟩] := rfl

@[simp] theorem State.finish_slots (s : State) (n : Nat) (st : Status) (v : Option Value) :
    (s.finish n st v).slots = s.slots := rfl

@[simp] theorem State.finish_chain (s : State) (n : Nat) (st : Status) (v : Option Value) :
    (s.finish n st v).chain = s.chain := rfl

@[simp] theorem State.finish_fault (s : State) (n : Nat) (st : Status) (v : Option Value) :
    (s.finish n st v).fault = s.fault := rfl

@[simp] theorem State.finish_trace (s : State) (n : Nat) (st : Status) (v : Option Value) :
    (s.finish n st v).trace = s.trace := rfl

/-! ### `faulted` -/

@[simp] theorem State.faulted_cfg (s : State) (code : FaultCode) (n : Nat) :
    (s.faulted code n).cfg = s.cfg := rfl

@[simp] theorem State.faulted_stream (s : State) (code : FaultCode) (n : Nat) :
    (s.faulted code n).stream = s.stream := rfl

@[simp] theorem State.faulted_cp (s : State) (code : FaultCode) (n : Nat) :
    (s.faulted code n).cp = s.cp := rfl

@[simp] theorem State.faulted_results (s : State) (code : FaultCode) (n : Nat) :
    (s.faulted code n).results = s.results := rfl

@[simp] theorem State.faulted_slots (s : State) (code : FaultCode) (n : Nat) :
    (s.faulted code n).slots = s.slots := rfl

@[simp] theorem State.faulted_chain (s : State) (code : FaultCode) (n : Nat) :
    (s.faulted code n).chain = s.chain := rfl

@[simp] theorem State.faulted_fault (s : State) (code : FaultCode) (n : Nat) :
    (s.faulted code n).fault = some ⟨code, s.cp, s.wordsAt n⟩ := rfl

@[simp] theorem State.faulted_trace (s : State) (code : FaultCode) (n : Nat) :
    (s.faulted code n).trace = s.trace := rfl

/-! ### `withFetchWord` -/

@[simp] theorem State.withFetchWord_cfg (s : State) (nbits w : Nat) :
    (s.withFetchWord nbits w).cfg = s.cfg := rfl

@[simp] theorem State.withFetchWord_stream (s : State) (nbits w : Nat) :
    (s.withFetchWord nbits w).stream = placeWords s.stream s.cp (tableWords nbits w) := rfl

@[simp] theorem State.withFetchWord_cp (s : State) (nbits w : Nat) :
    (s.withFetchWord nbits w).cp = s.cp := rfl

@[simp] theorem State.withFetchWord_results (s : State) (nbits w : Nat) :
    (s.withFetchWord nbits w).results = s.results := rfl

@[simp] theorem State.withFetchWord_slots (s : State) (nbits w : Nat) :
    (s.withFetchWord nbits w).slots = s.slots := rfl

@[simp] theorem State.withFetchWord_chain (s : State) (nbits w : Nat) :
    (s.withFetchWord nbits w).chain = s.chain := rfl

@[simp] theorem State.withFetchWord_fault (s : State) (nbits w : Nat) :
    (s.withFetchWord nbits w).fault = s.fault := rfl

@[simp] theorem State.withFetchWord_trace (s : State) (nbits w : Nat) :
    (s.withFetchWord nbits w).trace = s.trace := rfl

/-! ### Accessors through the updates that keep the slots -/

@[simp] theorem State.emit_numSlots (s : State) (evs : List Event) :
    (s.emit evs).numSlots = s.numSlots := rfl

@[simp] theorem State.emit_display (s : State) (evs : List Event) (k : Nat) :
    (s.emit evs).display k = s.display k := rfl

@[simp] theorem State.emit_panel (s : State) (evs : List Event) (k : Nat) :
    (s.emit evs).panel k = s.panel k := rfl

@[simp] theorem State.emit_driver (s : State) (evs : List Event) (k : Nat) :
    (s.emit evs).driver k = s.driver k := rfl

@[simp] theorem State.emit_fb (s : State) (evs : List Event) (k : Nat) :
    (s.emit evs).fb k = s.fb k := rfl

@[simp] theorem State.emit_cell (s : State) (evs : List Event) (k idx : Nat) :
    (s.emit evs).cell k idx = s.cell k idx := rfl

@[simp] theorem State.finish_numSlots (s : State) (n : Nat) (st : Status) (v : Option Value) :
    (s.finish n st v).numSlots = s.numSlots := rfl

@[simp] theorem State.finish_display (s : State) (n : Nat) (st : Status) (v : Option Value) (k : Nat) :
    (s.finish n st v).display k = s.display k := rfl

@[simp] theorem State.finish_panel (s : State) (n : Nat) (st : Status) (v : Option Value) (k : Nat) :
    (s.finish n st v).panel k = s.panel k := rfl

@[simp] theorem State.finish_driver (s : State) (n : Nat) (st : Status) (v : Option Value) (k : Nat) :
    (s.finish n st v).driver k = s.driver k := rfl

@[simp] theorem State.finish_fb (s : State) (n : Nat) (st : Status) (v : Option Value) (k : Nat) :
    (s.finish n st v).fb k = s.fb k := rfl

@[simp] theorem State.finish_cell (s : State) (n : Nat) (st : Status) (v : Option Value) (k idx : Nat) :
    (s.finish n st v).cell k idx = s.cell k idx := rfl

@[simp] theorem State.faulted_numSlots (s : State) (code : FaultCode) (n : Nat) :
    (s.faulted code n).numSlots = s.numSlots := rfl

@[simp] theorem State.faulted_display (s : State) (code : FaultCode) (n : Nat) (k : Nat) :
    (s.faulted code n).display k = s.display k := rfl

@[simp] theorem State.faulted_panel (s : State) (code : FaultCode) (n : Nat) (k : Nat) :
    (s.faulted code n).panel k = s.panel k := rfl

@[simp] theorem State.faulted_driver (s : State) (code : FaultCode) (n : Nat) (k : Nat) :
    (s.faulted code n).driver k = s.driver k := rfl

@[simp] theorem State.faulted_fb (s : State) (code : FaultCode) (n : Nat) (k : Nat) :
    (s.faulted code n).fb k = s.fb k := rfl

@[simp] theorem State.faulted_cell (s : State) (code : FaultCode) (n : Nat) (k idx : Nat) :
    (s.faulted code n).cell k idx = s.cell k idx := rfl

@[simp] theorem State.withFetchWord_numSlots (s : State) (nbits w : Nat) :
    (s.withFetchWord nbits w).numSlots = s.numSlots := rfl

@[simp] theorem State.withFetchWord_display (s : State) (nbits w : Nat) (k : Nat) :
    (s.withFetchWord nbits w).display k = s.display k := rfl

@[simp] theorem State.withFetchWord_panel (s : State) (nbits w : Nat) (k : Nat) :
    (s.withFetchWord nbits w).panel k = s.panel k := rfl

@[simp] theorem State.withFetchWord_driver (s : State) (nbits w : Nat) (k : Nat) :
    (s.withFetchWord nbits w).driver k = s.driver k := rfl

@[simp] theorem State.withFetchWord_fb (s : State) (nbits w : Nat) (k : Nat) :
    (s.withFetchWord nbits w).fb k = s.fb k := rfl

@[simp] theorem State.withFetchWord_cell (s : State) (nbits w : Nat) (k idx : Nat) :
    (s.withFetchWord nbits w).cell k idx = s.cell k idx := rfl

/-! ### Accessors through a change of one display -/

/-- The display of a slot after a change of the display of slot `k`. -/
theorem State.updDisplay_display (s : State) (k : Nat) (f : Display → Display) (j : Nat) :
    (s.updDisplay k f).display j = if j = k then (s.display j).map f else s.display j := by
  unfold State.display
  rw [State.updDisplay_slots, List.getElem?_modify]
  by_cases h : k = j
  · subst h
    cases hs : s.slots[k]? <;> simp
  · simp [h, Ne.symm h]

@[simp] theorem State.updDisplay_display_same (s : State) (k : Nat) (f : Display → Display) :
    (s.updDisplay k f).display k = (s.display k).map f := by
  simp [State.updDisplay_display]

theorem State.updDisplay_display_ne (s : State) {j k : Nat} (f : Display → Display) (h : j ≠ k) :
    (s.updDisplay k f).display j = s.display j := by
  simp [State.updDisplay_display, h]

@[simp] theorem State.updDisplay_numSlots (s : State) (k : Nat) (f : Display → Display) :
    (s.updDisplay k f).numSlots = s.numSlots := by
  simp [State.numSlots]

/-- A change that keeps the panel record of the display keeps every panel record. -/
theorem State.updDisplay_panel (s : State) (k : Nat) (f : Display → Display)
    (hf : ∀ q, (f q).panel = q.panel) (j : Nat) : (s.updDisplay k f).panel j = s.panel j := by
  unfold State.panel
  rw [State.updDisplay_display]
  split
  · cases s.display j <;> simp [hf]
  · rfl

/-- A change that keeps the driver record keeps every driver record. -/
theorem State.updDisplay_driver (s : State) (k : Nat) (f : Display → Display)
    (hf : ∀ q, (f q).driver = q.driver) (j : Nat) : (s.updDisplay k f).driver j = s.driver j := by
  unfold State.driver
  rw [State.updDisplay_display]
  split
  · cases s.display j <;> simp [hf]
  · rfl

/-- A change that keeps the frame buffer keeps every frame buffer. -/
theorem State.updDisplay_fb (s : State) (k : Nat) (f : Display → Display)
    (hf : ∀ q, (f q).fb = q.fb) (j : Nat) : (s.updDisplay k f).fb j = s.fb j := by
  unfold State.fb
  rw [State.updDisplay_display]
  split
  · cases s.display j <;> simp [hf]
  · rfl

/-! ### `setFb` -/

@[simp] theorem State.setFb_numSlots (s : State) (k : Nat) (m : Memory) :
    (s.setFb k m).numSlots = s.numSlots :=
  State.updDisplay_numSlots ..

@[simp] theorem State.setFb_panel (s : State) (k : Nat) (m : Memory) (j : Nat) :
    (s.setFb k m).panel j = s.panel j := by
  unfold State.setFb
  exact State.updDisplay_panel s k _ (by intro q; rfl) j

@[simp] theorem State.setFb_driver (s : State) (k : Nat) (m : Memory) (j : Nat) :
    (s.setFb k m).driver j = s.driver j := by
  unfold State.setFb
  exact State.updDisplay_driver s k _ (by intro q; rfl) j

/-- The frame buffer of a slot after `fb[k] <- m`. -/
theorem State.setFb_fb (s : State) (k : Nat) (m : Memory) (j : Nat) :
    (s.setFb k m).fb j = if j = k then (s.fb j).map fun _ => m else s.fb j := by
  unfold State.fb State.setFb
  rw [State.updDisplay_display]
  split
  · cases s.display j <;> simp
  · rfl

/-- A cell after `fb[k] <- m`. -/
theorem State.setFb_cell (s : State) (k : Nat) (m : Memory) (j idx : Nat) :
    (s.setFb k m).cell j idx = if j = k then (s.fb j).map fun _ => m.read idx else s.cell j idx := by
  unfold State.cell
  rw [State.setFb_fb]
  split
  · cases s.fb j <;> simp
  · rfl

/-! ### `setDriver` -/

@[simp] theorem State.setDriver_numSlots (s : State) (k : Nat) (d : Driver) :
    (s.setDriver k d).numSlots = s.numSlots :=
  State.updDisplay_numSlots ..

@[simp] theorem State.setDriver_panel (s : State) (k : Nat) (d : Driver) (j : Nat) :
    (s.setDriver k d).panel j = s.panel j := by
  unfold State.setDriver
  exact State.updDisplay_panel s k _ (by intro q; rfl) j

@[simp] theorem State.setDriver_fb (s : State) (k : Nat) (d : Driver) (j : Nat) :
    (s.setDriver k d).fb j = s.fb j := by
  unfold State.setDriver
  exact State.updDisplay_fb s k _ (by intro q; rfl) j

@[simp] theorem State.setDriver_cell (s : State) (k : Nat) (d : Driver) (j idx : Nat) :
    (s.setDriver k d).cell j idx = s.cell j idx := by
  simp [State.cell]

/-- The driver records after `setDriver`. -/
theorem State.setDriver_driver (s : State) (k : Nat) (d : Driver) (j : Nat) :
    (s.setDriver k d).driver j =
      if j = k then (s.driver j).map fun _ => d else s.driver j := by
  unfold State.driver State.setDriver
  rw [State.updDisplay_display]
  split
  · cases s.display j <;> simp
  · rfl

/-! ### `setLifecycle` -/

@[simp] theorem State.setLifecycle_numSlots (s : State) (k : Nat) (l : Lifecycle) :
    (s.setLifecycle k l).numSlots = s.numSlots :=
  State.updDisplay_numSlots ..

@[simp] theorem State.setLifecycle_panel (s : State) (k : Nat) (l : Lifecycle) (j : Nat) :
    (s.setLifecycle k l).panel j = s.panel j := by
  unfold State.setLifecycle
  exact State.updDisplay_panel s k _ (by intro q; rfl) j

@[simp] theorem State.setLifecycle_fb (s : State) (k : Nat) (l : Lifecycle) (j : Nat) :
    (s.setLifecycle k l).fb j = s.fb j := by
  unfold State.setLifecycle
  exact State.updDisplay_fb s k _ (by intro q; rfl) j

@[simp] theorem State.setLifecycle_cell (s : State) (k : Nat) (l : Lifecycle) (j idx : Nat) :
    (s.setLifecycle k l).cell j idx = s.cell j idx := by
  simp [State.cell]

/-- The driver records after `setLifecycle`. -/
theorem State.setLifecycle_driver (s : State) (k : Nat) (l : Lifecycle) (j : Nat) :
    (s.setLifecycle k l).driver j =
      if j = k then (s.driver j).map fun d => { d with lifecycle := l } else s.driver j := by
  unfold State.driver State.setLifecycle
  rw [State.updDisplay_display]
  split
  · cases s.display j <;> simp
  · rfl

/-! ### `setOn` -/

@[simp] theorem State.setOn_numSlots (s : State) (k : Nat) (on : Bool) :
    (s.setOn k on).numSlots = s.numSlots :=
  State.updDisplay_numSlots ..

@[simp] theorem State.setOn_panel (s : State) (k : Nat) (on : Bool) (j : Nat) :
    (s.setOn k on).panel j = s.panel j := by
  unfold State.setOn
  exact State.updDisplay_panel s k _ (by intro q; rfl) j

@[simp] theorem State.setOn_fb (s : State) (k : Nat) (on : Bool) (j : Nat) :
    (s.setOn k on).fb j = s.fb j := by
  unfold State.setOn
  exact State.updDisplay_fb s k _ (by intro q; rfl) j

@[simp] theorem State.setOn_cell (s : State) (k : Nat) (on : Bool) (j idx : Nat) :
    (s.setOn k on).cell j idx = s.cell j idx := by
  simp [State.cell]

/-- The driver records after `setOn`. -/
theorem State.setOn_driver (s : State) (k : Nat) (on : Bool) (j : Nat) :
    (s.setOn k on).driver j =
      if j = k then (s.driver j).map fun d => { d with on := some on } else s.driver j := by
  unfold State.driver State.setOn
  rw [State.updDisplay_display]
  split
  · cases s.display j <;> simp
  · rfl

/-! ### `setInverted` -/

@[simp] theorem State.setInverted_numSlots (s : State) (k : Nat) (on : Bool) :
    (s.setInverted k on).numSlots = s.numSlots :=
  State.updDisplay_numSlots ..

@[simp] theorem State.setInverted_panel (s : State) (k : Nat) (on : Bool) (j : Nat) :
    (s.setInverted k on).panel j = s.panel j := by
  unfold State.setInverted
  exact State.updDisplay_panel s k _ (by intro q; rfl) j

@[simp] theorem State.setInverted_fb (s : State) (k : Nat) (on : Bool) (j : Nat) :
    (s.setInverted k on).fb j = s.fb j := by
  unfold State.setInverted
  exact State.updDisplay_fb s k _ (by intro q; rfl) j

@[simp] theorem State.setInverted_cell (s : State) (k : Nat) (on : Bool) (j idx : Nat) :
    (s.setInverted k on).cell j idx = s.cell j idx := by
  simp [State.cell]

/-- The driver records after `setInverted`. -/
theorem State.setInverted_driver (s : State) (k : Nat) (on : Bool) (j : Nat) :
    (s.setInverted k on).driver j =
      if j = k then (s.driver j).map fun d => { d with inverted := some on } else s.driver j := by
  unfold State.driver State.setInverted
  rw [State.updDisplay_display]
  split
  · cases s.display j <;> simp
  · rfl

end Sys2Proof.Machine
end

