-- ==== Sys2Proof/Laws/Canvas.lean ====
section
/-! SUPPORT. The checked transform and the drawing operations: what `nativeIndex` answers, the canonical
form kept by every drawing operation, and RECT's loops over the logical grid as the loops over all its
coordinates that 42_canvas R145 writes. -/

namespace Sys2Proof.Machine

/-! ### The checked transform -/

/-- What an accepted coordinate gives. -/
theorem nativeIndex_eq_some {p : Panel} {x y : Int} {r : Nat} :
    nativeIndex p x y = some r ↔
      inLogical p x y ∧ inNative p (nativeOf p x y).1 (nativeOf p x y).2 ∧
        r = ((nativeOf p x y).2 * p.pixWidth + (nativeOf p x y).1).toNat := by
  unfold nativeIndex
  split
  · next h1 =>
    split
    · next h2 =>
      rw [Option.some.injEq]
      exact ⟨fun h => ⟨h1, h2, h.symm⟩, fun h => h.2.2.symm⟩
    · next h2 => exact ⟨fun h => by simp at h, fun h => absurd h.2.1 h2⟩
  · next h1 => exact ⟨fun h => by simp at h, fun h => absurd h.1 h1⟩

/-- A coordinate outside the logical grid is rejected (41_transform R121, R122). -/
theorem nativeIndex_of_outside {p : Panel} {x y : Int} (h : ¬ inLogical p x y) :
    nativeIndex p x y = none := by
  simp [nativeIndex, h]

/-- The index of a native coordinate lies inside the frame buffer. -/
theorem index_lt_cellCount {p : Panel} {X Y : Int} (h : inNative p X Y) :
    (Y * p.pixWidth + X).toNat < cellCount p := by
  obtain ⟨hX, hX', hY, hY'⟩ := h
  obtain ⟨a, rfl⟩ := Int.eq_ofNat_of_zero_le hX
  obtain ⟨b, rfl⟩ := Int.eq_ofNat_of_zero_le hY
  have ha : a < p.pixWidth := by omega
  have hb : b + 1 ≤ p.pixHeight := by omega
  have : ((b : Int) * p.pixWidth + a).toNat = b * p.pixWidth + a := by
    have : ((b : Int) * p.pixWidth + a) = ((b * p.pixWidth + a : Nat) : Int) := by push_cast; ring
    rw [this, Int.toNat_natCast]
  rw [this, cellCount]
  calc b * p.pixWidth + a < b * p.pixWidth + p.pixWidth := by omega
    _ = (b + 1) * p.pixWidth := by ring
    _ ≤ p.pixHeight * p.pixWidth := Nat.mul_le_mul_right _ hb
    _ = p.pixWidth * p.pixHeight := Nat.mul_comm _ _

theorem nativeIndex_lt {p : Panel} {x y : Int} {r : Nat} (h : nativeIndex p x y = some r) :
    r < cellCount p := by
  obtain ⟨-, hn, rfl⟩ := nativeIndex_eq_some.mp h
  exact index_lt_cellCount hn

/-! ### One pixel -/

theorem putPixel_of_none {p : Panel} {x y : Int} (h : nativeIndex p x y = none) (c : Color)
    (m : Memory) : putPixel p x y c m = m := by
  simp [putPixel, setPixel, h]

theorem putPixel_of_some {p : Panel} {x y : Int} {r : Nat} (h : nativeIndex p x y = some r)
    (c : Color) (m : Memory) : putPixel p x y c m = m.write r c := by
  simp [putPixel, setPixel, h]

/-- A drawing operation keeps the canonical form and stays inside the frame buffer. -/
def KeepsMemory (p : Panel) (f : Memory → Memory) : Prop :=
  ∀ m : Memory, m.wf → m.within (cellCount p) → (f m).wf ∧ (f m).within (cellCount p)

theorem putPixel_keeps (p : Panel) (x y : Int) (c : Color) : KeepsMemory p (putPixel p x y c) := by
  intro m hw hn
  cases h : nativeIndex p x y with
  | none => rw [putPixel_of_none h]; exact ⟨hw, hn⟩
  | some r =>
    rw [putPixel_of_some h]
    exact ⟨Memory.write_wf hw r c, Memory.write_within hn (nativeIndex_lt h) c⟩

theorem setPixel_keeps {p : Panel} {x y : Int} {c : Color} {m m' : Memory}
    (h : setPixel p x y c m = some m') (hw : m.wf) (hn : m.within (cellCount p)) :
    m'.wf ∧ m'.within (cellCount p) := by
  have := putPixel_keeps p x y c m hw hn
  simpa [putPixel, h] using this

/-- A loop of operations that keep the memory keeps it. -/
theorem foldl_keeps {α : Type} {p : Panel} {f : Memory → α → Memory}
    (h : ∀ a, KeepsMemory p fun m => f m a) (l : List α) : KeepsMemory p fun m => l.foldl f m := by
  induction l with
  | nil => exact fun m hw hn => ⟨hw, hn⟩
  | cons a l ih =>
    intro m hw hn
    obtain ⟨hw', hn'⟩ := h a m hw hn
    exact ih (f m a) hw' hn'

theorem fillPixels_keeps (p : Panel) (c : Color) (ys xs : List Int) :
    KeepsMemory p (fillPixels p c ys xs) :=
  foldl_keeps (fun y => foldl_keeps (fun x => putPixel_keeps p x y c) xs) ys

theorem drawRect_keeps (p : Panel) (c : Color) (x1 y1 x2 y2 : Int) :
    KeepsMemory p (drawRect p c x1 y1 x2 y2) :=
  fillPixels_keeps p c _ _

theorem drawImagePixel_keeps (p : Panel) (img : Image) (xs ys : Int) (iy ix : Nat) :
    KeepsMemory p (drawImagePixel p img xs ys iy ix) := by
  intro m hw hn
  unfold drawImagePixel
  split
  · exact ⟨hw, hn⟩
  · split
    · exact ⟨hw, hn⟩
    · exact putPixel_keeps p _ _ _ m hw hn

theorem drawImage_keeps (p : Panel) (img : Image) (xs ys : Int) :
    KeepsMemory p (drawImage p img xs ys) :=
  foldl_keeps (fun iy => foldl_keeps (fun ix => drawImagePixel_keeps p img xs ys iy ix) _) _

/-! ### RECT's loops -/

theorem mem_intRange {lo hi v : Int} : v ∈ intRange lo hi ↔ lo ≤ v ∧ v ≤ hi := by
  unfold intRange
  simp only [List.mem_map, List.mem_range]
  constructor
  · rintro ⟨k, hk, rfl⟩
    omega
  · rintro ⟨h1, h2⟩
    exact ⟨(v - lo).toNat, by omega, by omega⟩

theorem intRange_sorted (lo hi : Int) : (intRange lo hi).Pairwise (· < ·) := by
  unfold intRange
  refine List.pairwise_map.mpr (List.pairwise_lt_range.imp fun h => ?_)
  omega

/-- The part of a range inside `0 .. n-1` is the clipped range. -/
theorem intRange_filter (lo hi : Int) (n : Nat) :
    (intRange lo hi).filter (fun v : Int => 0 ≤ v ∧ v < n) = intRange (max lo 0) (min hi (n - 1)) := by
  have h1 := (intRange_sorted lo hi).filter (fun v => decide (0 ≤ v ∧ v < (n : Int)))
  have h2 := intRange_sorted (max lo 0) (min hi ((n : Int) - 1))
  refine List.Perm.eq_of_pairwise (fun a b _ _ hab hba => absurd hab (Int.lt_asymm hba)) h1 h2 ?_
  refine (List.perm_ext_iff_of_nodup (h1.imp Int.ne_of_lt) (h2.imp Int.ne_of_lt)).mpr fun v => ?_
  rw [List.mem_filter, mem_intRange, mem_intRange]
  simp only [decide_eq_true_eq]
  omega

/-- A loop may leave out the elements that change nothing. -/
theorem foldl_filter_skip {α β : Type} (f : β → α → β) (keep : α → Bool)
    (h : ∀ b a, keep a = false → f b a = b) (l : List α) (b : β) :
    (l.filter keep).foldl f b = l.foldl f b := by
  induction l generalizing b with
  | nil => rfl
  | cons a l ih =>
    cases hk : keep a with
    | true => rw [List.filter_cons_of_pos hk, List.foldl_cons, List.foldl_cons, ih]
    | false => rw [List.filter_cons_of_neg (by simp [hk]), List.foldl_cons, h b a hk, ih]

/-- Rows and columns outside the logical grid draw nothing. -/
theorem fillPixels_clip (p : Panel) (c : Color) (ys xs : List Int) (m : Memory) :
    fillPixels p c (ys.filter fun y : Int => 0 ≤ y ∧ y < logicalHeight p)
      (xs.filter fun x : Int => 0 ≤ x ∧ x < logicalWidth p) m = fillPixels p c ys xs m := by
  have hx : ∀ (y : Int) (m : Memory),
      (xs.filter fun x : Int => 0 ≤ x ∧ x < logicalWidth p).foldl (fun m x => putPixel p x y c m) m =
        xs.foldl (fun m x => putPixel p x y c m) m := by
    intro y m
    refine foldl_filter_skip _ _ (fun b x hx => putPixel_of_none (nativeIndex_of_outside ?_) c b) xs m
    intro hin
    simp [hin.1, hin.2.1] at hx
  unfold fillPixels
  simp only [hx]
  refine foldl_filter_skip _ _ (fun b y hy => ?_) ys m
  have hrow : ∀ (l : List Int) (b : Memory), l.foldl (fun m x => putPixel p x y c m) b = b := by
    intro l
    induction l with
    | nil => exact fun _ => rfl
    | cons x l ih =>
      intro b
      rw [List.foldl_cons, putPixel_of_none (nativeIndex_of_outside ?_), ih]
      intro hin
      simp [hin.2.2.1, hin.2.2.2] at hy
  exact hrow xs b

/-- RECT draws every pixel of its loops as 42_canvas R145 writes them (log entry 12). -/
theorem drawRect_eq_all_pixels (p : Panel) (c : Color) (x1 y1 x2 y2 : Int) (m : Memory) :
    drawRect p c x1 y1 x2 y2 m = fillPixels p c (intRange y1 (y2 - 1)) (intRange x1 x2) m := by
  rw [← fillPixels_clip p c (intRange y1 (y2 - 1)) (intRange x1 x2), intRange_filter,
    intRange_filter]
  rfl

end Sys2Proof.Machine
end

