-- ==== Sys2Proof/Laws/Chain.lean ====
section
/-! SUPPORT. The chain: what each event does to it, what no event changes, and what a walk emits. -/

namespace Sys2Proof.Machine

/-! ### One event -/

@[simp] theorem Chain.apply_clock (c : Chain) (b : Bool) :
    c.apply (.pin .clock b) = c.driveClock b := rfl
@[simp] theorem Chain.apply_data_line (c : Chain) (b : Bool) :
    c.apply (.pin .data b) = c.driveData b := rfl
@[simp] theorem Chain.apply_delay (c : Chain) (ms : Nat) : c.apply (.delay ms) = c := rfl
@[simp] theorem Chain.apply_cmd (c : Chain) (b : Byte) (sel : List Nat) :
    c.apply (.cmd b sel) = c := rfl
@[simp] theorem Chain.apply_data (c : Chain) (b : Byte) (sel : List Nat) :
    c.apply (.data b sel) = c := rfl

@[simp] theorem Chain.apply_pulse (c : Chain) (p : PulseStep) : c.apply (pulseEvent p) = c := by
  rcases p with ⟨_ | _ | n, lvl⟩ | ms <;> rfl

/-- Driving CLOCK: the level afterwards. -/
@[simp] theorem Chain.driveClock_clock (c : Chain) (b : Bool) :
    (c.driveClock b).clock = Level.ofBool b := rfl

/-- Driving CLOCK to 0 changes nothing but the level (10_state R32). -/
theorem Chain.driveClock_false (c : Chain) : c.driveClock false = { c with clock := .low } := rfl

/-- A rising edge (10_state R32). -/
theorem Chain.driveClock_rise (c : Chain) (h : c.clock = .low) :
    c.driveClock true = { c.rise with clock := .high } := by
  simp [Chain.driveClock, h, Level.ofBool]

/-- Driving CLOCK to 1 from any level but a known 0 is no edge (10_state R32). -/
theorem Chain.driveClock_no_edge (c : Chain) (h : c.clock ≠ .low) :
    c.driveClock true = { c with clock := .high } := by
  simp [Chain.driveClock, h, Level.ofBool]

@[simp] theorem Chain.rise_sr_length (c : Chain) : c.rise.sr.length = c.sr.length := by
  simp [Chain.rise]

/-- No event changes the number of stages. -/
@[simp] theorem Chain.apply_sr_length (c : Chain) (e : Event) :
    (c.apply e).sr.length = c.sr.length := by
  rcases e with ⟨p, b⟩ | _ | _ | _
  · cases p
    case clock =>
      rw [Chain.apply_clock]
      unfold Chain.driveClock
      dsimp only
      split
      · exact c.rise_sr_length
      · rfl
    all_goals rfl
  all_goals rfl

@[simp] theorem Chain.foldl_apply_sr_length (evs : List Event) (c : Chain) :
    (evs.foldl Chain.apply c).sr.length = c.sr.length := by
  induction evs generalizing c with
  | nil => rfl
  | cons e evs ih => rw [List.foldl_cons, ih, Chain.apply_sr_length]

/-- An event that drives neither CLOCK nor DATA. -/
def Event.quiet : Event → Prop
  | .pin .clock _ => False
  | .pin .data _ => False
  | .pin .reset _ => True
  | .pin .panelReset _ => True
  | .pin (.other _) _ => True
  | .delay _ => True
  | .cmd _ _ => True
  | .data _ _ => True

theorem Chain.apply_of_quiet (c : Chain) {e : Event} (h : e.quiet) : c.apply e = c := by
  rcases e with ⟨p, b⟩ | _ | _ | _
  · cases p
    case clock => exact h.elim
    case data => exact h.elim
    all_goals rfl
  all_goals rfl

/-- Quiet events leave the chain as it is. -/
theorem Chain.foldl_apply_of_quiet (c : Chain) {evs : List Event} (h : ∀ e ∈ evs, e.quiet) :
    evs.foldl Chain.apply c = c := by
  induction evs with
  | nil => rfl
  | cons e evs ih =>
    rw [List.foldl_cons, Chain.apply_of_quiet c (h e (by simp)), ih fun a ha => h a (by simp [ha])]

/-- Emitting quiet events changes the trace alone. -/
theorem State.emit_of_quiet (s : State) {evs : List Event} (h : ∀ e ∈ evs, e.quiet) :
    s.emit evs = { s with trace := s.trace ++ evs } := by
  simp [State.emit, Chain.foldl_apply_of_quiet _ h]

/-- Two emissions are one. -/
theorem State.emit_emit (s : State) (a b : List Event) : (s.emit a).emit b = s.emit (a ++ b) := by
  simp [State.emit]

/-! ### The event sequences of the panel driver are quiet -/

theorem sendCmd_quiet (sel : List Nat) (c : Byte) (data : List Byte) :
    ∀ e ∈ sendCmd sel c data, e.quiet := by
  intro e he
  simp only [sendCmd, List.mem_cons, List.mem_map] at he
  rcases he with rfl | ⟨b, -, rfl⟩ <;> trivial

theorem pulse_quiet (ps : List PulseStep) : ∀ e ∈ ps.map pulseEvent, e.quiet := by
  intro e he
  obtain ⟨p, -, rfl⟩ := List.mem_map.mp he
  rcases p with ⟨_ | _ | n, lvl⟩ | ms <;> trivial

theorem windowEvents_quiet (cfg : Cfg) (p : Panel) (sel : List Nat) :
    ∀ e ∈ windowEvents cfg p sel, e.quiet := by
  intro e he
  simp only [windowEvents, List.mem_append] at he
  rcases he with (he | he) | he <;> exact sendCmd_quiet _ _ _ _ he

theorem pixelEvents_quiet (o : ByteOrder) (cells : List Color) (sel : List Nat) :
    ∀ e ∈ pixelEvents o cells sel, e.quiet := by
  intro e he
  obtain ⟨b, -, rfl⟩ := List.mem_map.mp he
  trivial

theorem initEvents_quiet (cfg : Cfg) (p : Panel) (sel : List Nat) :
    ∀ e ∈ initEvents cfg p sel, e.quiet := by
  have hd : ∀ (ms : Nat) (e : Event), e ∈ [Event.delay ms] → e.quiet := by
    intro ms e he
    rw [List.mem_singleton.mp he]
    trivial
  have ht : ∀ e ∈ (cfg.initTable p.variant).flatMap (initEntryEvents sel), e.quiet := by
    intro e he
    obtain ⟨x, -, he⟩ := List.mem_flatMap.mp he
    rcases List.mem_append.mp he with he | he
    · exact sendCmd_quiet _ _ _ _ he
    · exact hd _ _ he
  intro e he
  simp only [initEvents, List.mem_append] at he
  rcases he with (((((he | he) | he) | he) | he) | he) | he
  · exact pulse_quiet _ _ he
  · exact sendCmd_quiet _ _ _ _ he
  · exact hd _ _ he
  · exact sendCmd_quiet _ _ _ _ he
  · exact hd _ _ he
  · exact ht _ he
  · exact sendCmd_quiet _ _ _ _ he

/-! ### Target vectors -/

@[simp] theorem selVec_length (l i : Nat) : (selVec l i).length = l := by simp [selVec]
@[simp] theorem maskVec_length (mask : Word) (n : Nat) : (maskVec mask n).length = n + 1 := by
  simp [maskVec]
@[simp] theorem allVec_length (l : Nat) : (allVec l).length = l := by simp [allVec]

/-! ### The walk changes chain and trace alone -/

@[simp] theorem walk_slots (t : List Bool) (s : State) : (walk t s).slots = s.slots := rfl
@[simp] theorem walk_cfg (t : List Bool) (s : State) : (walk t s).cfg = s.cfg := rfl
@[simp] theorem walk_stream (t : List Bool) (s : State) : (walk t s).stream = s.stream := rfl
@[simp] theorem walk_cp (t : List Bool) (s : State) : (walk t s).cp = s.cp := rfl
@[simp] theorem walk_results (t : List Bool) (s : State) : (walk t s).results = s.results := rfl
@[simp] theorem walk_fault (t : List Bool) (s : State) : (walk t s).fault = s.fault := rfl
@[simp] theorem walk_trace (t : List Bool) (s : State) :
    (walk t s).trace = s.trace ++ walkEvents t := rfl
@[simp] theorem walk_chain (t : List Bool) (s : State) :
    (walk t s).chain = (walkEvents t).foldl Chain.apply s.chain := rfl
@[simp] theorem walk_display (t : List Bool) (s : State) (k : Nat) :
    (walk t s).display k = s.display k := rfl
@[simp] theorem walk_numSlots (t : List Bool) (s : State) : (walk t s).numSlots = s.numSlots := rfl
@[simp] theorem walkTo_display (i : Nat) (s : State) (k : Nat) :
    (walkTo i s).display k = s.display k := rfl
@[simp] theorem walkTo_numSlots (i : Nat) (s : State) : (walkTo i s).numSlots = s.numSlots := rfl

end Sys2Proof.Machine
end

