-- ==== Sys2Proof/Laws/Decode.lean ====
section
/-! SUPPORT. The opcode map and the fields of encoded words. -/

namespace Sys2Proof

/-! ### The opcode map -/

theorem Opcode.mem_all (op : Opcode) : op ∈ Opcode.all := by
  cases op <;> decide

/-- No two rows of 30_encoding R79 share an opcode byte. -/
theorem Opcode.byte_injective {a b : Opcode} (h : a.byte = b.byte) : a = b := by
  revert h
  cases a <;> cases b <;> decide

@[simp] theorem Opcode.ofByte_byte (op : Opcode) : Opcode.ofByte op.byte = some op := by
  cases op <;> decide

theorem Opcode.byte_of_ofByte {b : Byte} {op : Opcode} (h : Opcode.ofByte b = some op) :
    op.byte = b := by
  unfold Opcode.ofByte at h
  simpa using List.find?_some h

theorem Opcode.len_pos (op : Opcode) : 1 ≤ op.len := by
  cases op <;> decide

theorem Opcode.len_le (op : Opcode) : op.len ≤ 3 := by
  cases op <;> decide

/-! ### Fields of a header -/

/-- A slice of an appended word that lies in its low part. -/
theorem extract_append_low {n m : Nat} (x : BitVec n) (y : BitVec m) (s w : Nat) (h : s + w ≤ m) :
    (x ++ y).extractLsb' s w = y.extractLsb' s w := by
  ext i hi
  simp only [BitVec.getElem_extractLsb', BitVec.getLsbD_append]
  rw [if_pos (by omega)]

/-- A slice of an appended word that lies in its high part. -/
theorem extract_append_high {n m : Nat} (x : BitVec n) (y : BitVec m) (s w : Nat) (h : m ≤ s) :
    (x ++ y).extractLsb' s w = x.extractLsb' (s - m) w := by
  ext i hi
  simp only [BitVec.getElem_extractLsb', BitVec.getLsbD_append]
  rw [if_neg (by omega)]
  congr 1
  omega

@[simp] theorem opField_header (op : Opcode) (mid : Byte) (arg : BitVec 16) :
    opField (header op mid arg) = op.byte := by
  unfold opField header
  rw [extract_append_high _ _ _ _ (by omega), extract_append_high _ _ _ _ (by omega)]
  simp

@[simp] theorem midField_header (op : Opcode) (mid : Byte) (arg : BitVec 16) :
    midField (header op mid arg) = mid := by
  unfold midField header
  rw [extract_append_high _ _ _ _ (by omega), extract_append_low _ _ _ _ (by omega)]
  simp

@[simp] theorem argField_header (op : Opcode) (mid : Byte) (arg : BitVec 16) :
    argField (header op mid arg) = arg := by
  unfold argField header
  rw [extract_append_low _ _ _ _ (by omega)]
  simp

@[simp] theorem hiField_header (op : Opcode) (mid : Byte) (hi lo : Byte) :
    hiField (header op mid (hi ++ lo)) = hi := by
  unfold hiField header
  rw [extract_append_low _ _ _ _ (by omega), extract_append_high _ _ _ _ (by omega)]
  simp

@[simp] theorem loField_header (op : Opcode) (mid : Byte) (hi lo : Byte) :
    loField (header op mid (hi ++ lo)) = lo := by
  unfold loField header
  rw [extract_append_low _ _ _ _ (by omega), extract_append_low _ _ _ _ (by omega)]
  simp

@[simp] theorem onField_header (op : Opcode) (mid : Byte) (on : Bool) :
    onField (header op mid (onArg on)) = on := by
  unfold onField header
  rw [BitVec.getLsbD_append]
  cases on <;> rfl

@[simp] theorem indexField_header (op : Opcode) {i : Nat} (h : fitsIndex i = true)
    (arg : BitVec 16) : indexField (header op (indexByte i) arg) = i := by
  unfold indexField
  rw [midField_header, indexByte, BitVec.toNat_ofNat]
  exact Nat.mod_eq_of_lt (by simpa [fitsIndex] using h)

/-! ### Coordinates -/

theorem toInt_ofInt_of_fitsCoord {v : Int} (h : fitsCoord v = true) :
    (BitVec.ofInt 16 v).toInt = v := by
  have hv : -32768 ≤ v ∧ v ≤ 32767 := by simpa [fitsCoord] using h
  rw [BitVec.toInt_ofInt, Int.bmod_def]
  split <;> omega

@[simp] theorem pointX_pointWord {x : Int} (h : fitsCoord x = true) (y : Int) :
    pointX (pointWord x y) = x := by
  unfold pointX pointWord
  rw [extract_append_high _ _ _ _ (by omega)]
  simpa using toInt_ofInt_of_fitsCoord h

@[simp] theorem pointY_pointWord (x : Int) {y : Int} (h : fitsCoord y = true) :
    pointY (pointWord x y) = y := by
  unfold pointY pointWord
  rw [extract_append_low _ _ _ _ (by omega)]
  simpa using toInt_ofInt_of_fitsCoord h

/-! ### Reserved bits -/

/-- The masked bits of a header, part by part. -/
theorem header_and (op : Opcode) (mid mm : Byte) (arg am : BitVec 16) :
    header op mid arg &&& (0#8 ++ mm ++ am) = 0#8 ++ (mid &&& mm) ++ (arg &&& am) := by
  unfold header
  rw [BitVec.and_append, BitVec.and_append, BitVec.and_zero]

/-! ### What decoding answers -/

@[simp] theorem decode_nil : decode [] = .ended := rfl

/-- Decoding a header of a known opcode. -/
theorem decode_cons {h : Word} {rest : List Word} {op : Opcode}
    (ho : Opcode.ofByte (opField h) = some op) :
    decode (h :: rest) =
      if h &&& op.zeroMask ≠ 0 then .illegal
      else if (h :: rest).length < op.len then .truncated op.len
      else .instr (assembleFields op h (rest.getD 0 0) (rest.getD 1 0)) := by
  simp only [decode, ho]

/-- The opcode of the command the decoder builds. -/
@[simp] theorem assembleFields_opcode (op : Opcode) (h w1 w2 : Word) :
    (assembleFields op h w1 w2).opcode = op := by
  cases op <;> rfl

/-- A decoded command lies wholly in the stream (30_encoding R82). -/
theorem decode_instr_len {ws : List Word} {i : Instr} (h : decode ws = .instr i) :
    i.len ≤ ws.length := by
  cases ws with
  | nil => cases h
  | cons hd rest =>
    simp only [decode] at h
    split at h
    · cases h
    · next op ho =>
      split at h
      · cases h
      · split at h
        · cases h
        · next hlen =>
          cases h
          rw [Instr.len, assembleFields_opcode]
          exact Nat.not_lt.mp hlen

end Sys2Proof
end

