-- ==== Sys2Proof/Laws/Ops.lean ====
section
/-! SUPPORT. One lemma per shared operation saying everything it can do. -/

namespace Sys2Proof.Machine

theorem complete_eq (len : Nat) (st : Status) (v : Option Value) (s : State) :
    complete len st v s = .next (s.finish len st v) := rfl

theorem raiseFault_eq (code : FaultCode) (len : Nat) (s : State) :
    raiseFault code len s = .next (s.faulted code len) := rfl

/-- Fault entry, in the words of the frames. -/
theorem faulted_takesFault (code : FaultCode) (len : Nat) (s : State) :
    TakesFault code len s (s.faulted code len) := rfl

/-! ### The slot operand -/

/-- A display is in slot `d` exactly where the slot list holds it. -/
theorem State.display_eq_some {s : State} {d : Nat} {q : Display} :
    s.display d = some q ↔ s.slots[d]? = some (some q) := by
  unfold State.display
  cases s.slots[d]? <;> simp

theorem State.lt_of_display {s : State} {d : Nat} {q : Display} (h : s.display d = some q) :
    d < s.numSlots := by
  have := State.display_eq_some.mp h
  exact (List.getElem?_eq_some_iff.mp this).1

theorem withDisplay_badIndex {d len : Nat} {s : State} {go : Display → Outcome}
    (h : s.numSlots ≤ d) : withDisplay d len s go = .next (s.faulted .badIndex len) := by
  unfold withDisplay
  rw [List.getElem?_eq_none h]
  rfl

theorem withDisplay_absent {d len : Nat} {s : State} {go : Display → Outcome}
    (hd : d < s.numSlots) (h : s.display d = none) :
    withDisplay d len s go = .next (s.finish len .absent none) := by
  unfold State.display at h
  unfold withDisplay
  have hd' : d < s.slots.length := hd
  rw [List.getElem?_eq_getElem hd'] at h ⊢
  simp only [Option.getD_some] at h
  rw [h]
  rfl

theorem withDisplay_present {d len : Nat} {s : State} {go : Display → Outcome} {q : Display}
    (h : s.display d = some q) : withDisplay d len s go = go q := by
  unfold withDisplay
  rw [State.display_eq_some.mp h]

/-- Everything a command with a display operand can do. -/
theorem withDisplay_cases {d len : Nat} {s t : State} {go : Display → Outcome}
    (h : withDisplay d len s go = .next t) :
    (s.numSlots ≤ d ∧ t = s.faulted .badIndex len) ∨
      (d < s.numSlots ∧ s.display d = none ∧ t = s.finish len .absent none) ∨
      ∃ q, s.display d = some q ∧ go q = .next t := by
  rcases Nat.lt_or_ge d s.numSlots with hd | hd
  · cases hq : s.display d with
    | none =>
      rw [withDisplay_absent hd hq] at h
      cases h
      exact .inr (.inl ⟨hd, rfl, rfl⟩)
    | some q =>
      rw [withDisplay_present hq] at h
      exact .inr (.inr ⟨q, rfl, h⟩)
  · rw [withDisplay_badIndex hd] at h
    cases h
    exact .inl ⟨hd, rfl⟩

/-- Everything the preamble of UPD, PWR and INV can do. -/
theorem whenReady_cases {q : Display} {s t : State} {go : Outcome}
    (h : whenReady q s go = .next t) :
    (q.isReady = false ∧ t = s.faulted .notInitialized 1) ∨
      (q.isReady = true ∧ s.chain.known = false ∧ t = s.faulted .chainUnknown 1) ∨
      (q.isReady = true ∧ s.chain.known = true ∧ go = .next t) := by
  unfold whenReady at h
  split at h
  · next hr =>
    split at h
    · next hk => exact .inr (.inr ⟨hr, hk, h⟩)
    · next hk =>
      cases h
      exact .inr (.inl ⟨hr, by simpa using hk, rfl⟩)
  · next hr =>
    cases h
    exact .inl ⟨by simpa using hr, rfl⟩

/-! ### Bodies -/

/-- What INIT's body does: the events tagged with the selection, then the driver record. -/
theorem initBody_eq (d : Nat) (q : Display) (s : State) :
    initBody d q s =
      { s.setDriver d Driver.initialised with
        trace := s.trace ++ initEvents s.cfg q.panel s.chain.selected } := by
  unfold initBody
  rw [State.emit_of_quiet _ (initEvents_quiet _ _ _)]
  simp only [State.setDriver, State.setLifecycle, State.updDisplay, List.modify_modify_eq]
  congr 2
  funext o
  cases o <;> rfl

/-- The events of UPD's body. -/
def updEvents (cfg : Cfg) (q : Display) (sel : List Nat) : List Event :=
  (if q.driver.on = some false then sendCmd sel cfg.cmdCode.dispon [] else []) ++
    windowEvents cfg q.panel sel ++
    pixelEvents cfg.wireByteOrder (q.fb.cells (cellCount q.panel)) sel

theorem updEvents_quiet (cfg : Cfg) (q : Display) (sel : List Nat) :
    ∀ e ∈ updEvents cfg q sel, e.quiet := by
  intro e he
  simp only [updEvents, List.mem_append] at he
  rcases he with (he | he) | he
  · split at he
    · exact sendCmd_quiet _ _ _ _ he
    · simp at he
  · exact windowEvents_quiet _ _ _ _ he
  · exact pixelEvents_quiet _ _ _ _ he

/-- What UPD's body does: the events tagged with the selection, and `on` set if it was false. -/
theorem updBody_eq (d : Nat) (q : Display) (s : State) :
    updBody d q s =
      { (if q.driver.on = some false then s.setOn d true else s) with
        trace := s.trace ++ updEvents s.cfg q s.chain.selected } := by
  unfold updBody powerOnIfOff updEvents
  rw [State.emit_of_quiet _ (pixelEvents_quiet _ _ _), State.emit_of_quiet _ (windowEvents_quiet _ _ _)]
  split
  · rw [State.emit_of_quiet _ (sendCmd_quiet _ _ _)]
    simp [State.setOn, State.updDisplay]
  · simp

/-! ### Step -/

theorem step_faulted {s : State} {r : FaultRecord} (h : s.fault = some r) :
    step s = .fault (.halted r.code) := by
  simp [step, h]

theorem step_ended {s : State} (h : s.fault = none) (hf : fetch s = .ended) :
    step s = .refused .endOfRun := by
  simp [step, h, hf]

theorem step_illegal {s : State} (h : s.fault = none) (hf : fetch s = .illegal) :
    step s = .next (s.faulted .illegalCommand 1) := by
  simp [step, h, hf, raiseIllegal, raiseFault]

theorem step_truncated {s : State} {len : Nat} (h : s.fault = none) (hf : fetch s = .truncated len) :
    step s = .next (s.faulted .truncatedCommand len) := by
  simp [step, h, hf, raiseTruncated, raiseFault]

/-- Everything a step that answers a next state can do. -/
theorem step_cases {s t : State} (h : step s = .next t) :
    s.fault = none ∧
      ((fetch s = .illegal ∧ t = s.faulted .illegalCommand 1) ∨
        (∃ len, fetch s = .truncated len ∧ t = s.faulted .truncatedCommand len) ∨
        ∃ i, fetch s = .instr i ∧ exec i s = .next t) := by
  unfold step at h
  split at h
  · cases h
  · next hf =>
    refine ⟨hf, ?_⟩
    split at h
    · cases h
    · next hd =>
      cases h
      exact .inl ⟨hd, rfl⟩
    · next len hd =>
      cases h
      exact .inr (.inl ⟨len, hd, rfl⟩)
    · next i hd => exact .inr (.inr ⟨i, hd, h⟩)

end Sys2Proof.Machine
end

