-- ==== Sys2Proof/Laws/PerInstr.lean ====
section
/-! SUPPORT. Per command: its encoding has the length of 30_encoding R79, its opcode byte in bits 31:24
of the header, and every `= 0` field of R80 zero. -/

namespace Sys2Proof.Laws.EncodesLegal

/-- The encoding of a command is legal. -/
def Statement (i : Instr) : Prop :=
  (encode i).length = i.len ∧
    ∃ h rest, encode i = h :: rest ∧ Opcode.ofByte (opField h) = some i.opcode ∧
      h &&& i.opcode.zeroMask = 0

/-- A header whose masked parts are zero is legal. -/
theorem of_header {i : Instr} {op : Opcode} {mid : Byte} {arg : BitVec 16} {rest : List Word}
    (mm : Byte) (am : BitVec 16) (he : encode i = header op mid arg :: rest) (hi : i.opcode = op)
    (hz : op.zeroMask = 0#8 ++ mm ++ am) (hm : mid &&& mm = 0) (ha : arg &&& am = 0)
    (hl : rest.length + 1 = op.len) : Statement i := by
  subst hi
  refine ⟨by rw [he, List.length_cons, hl, Instr.len], _, _, he, by simp, ?_⟩
  rw [hz, header_and, hm, ha]
  rfl

theorem onArg_and (on : Bool) : onArg on &&& 0xFFFE = 0 := by cases on <;> rfl

theorem seld (i : Nat) : Statement (.seld i) :=
  of_header 0x00 0xFFFF rfl rfl rfl (by simp) (by simp) rfl
theorem selm (mask : Word) : Statement (.selm mask) :=
  of_header 0xFF 0xFFFF rfl rfl rfl (by simp) (by simp) rfl
theorem sela : Statement .sela :=
  of_header 0xFF 0xFFFF rfl rfl rfl (by simp) (by simp) rfl
theorem initall : Statement .initall :=
  of_header 0xFF 0xFFFF rfl rfl rfl (by simp) (by simp) rfl
theorem updall : Statement .updall :=
  of_header 0xFF 0xFFFF rfl rfl rfl (by simp) (by simp) rfl
theorem updd (i : Nat) : Statement (.updd i) :=
  of_header 0x00 0xFFFF rfl rfl rfl (by simp) (by simp) rfl
theorem updm (mask : Word) : Statement (.updm mask) :=
  of_header 0xFF 0xFFFF rfl rfl rfl (by simp) (by simp) rfl
theorem init (d : Nat) : Statement (.init d) :=
  of_header 0x00 0xFFFF rfl rfl rfl (by simp) (by simp) rfl
theorem upd (d : Nat) : Statement (.upd d) :=
  of_header 0x00 0xFFFF rfl rfl rfl (by simp) (by simp) rfl
theorem pwr (d : Nat) (on : Bool) : Statement (.pwr d on) :=
  of_header 0x00 0xFFFE rfl rfl rfl (by simp) (onArg_and on) rfl
theorem inv (d : Nat) (on : Bool) : Statement (.inv d on) :=
  of_header 0x00 0xFFFE rfl rfl rfl (by simp) (onArg_and on) rfl
theorem clr (d : Nat) (c : Color) : Statement (.clr d c) :=
  of_header 0x00 0x0000 rfl rfl rfl (by simp) (by simp) rfl
theorem setpx (d : Nat) (c : Color) (x y : Int) : Statement (.setpx d c x y) :=
  of_header 0x00 0x0000 rfl rfl rfl (by simp) (by simp) rfl
theorem getpx (d : Nat) (x y : Int) : Statement (.getpx d x y) :=
  of_header 0x00 0xFFFF rfl rfl rfl (by simp) (by simp) rfl
theorem rect (d : Nat) (c : Color) (x1 y1 x2 y2 : Int) : Statement (.rect d c x1 y1 x2 y2) :=
  of_header 0x00 0x0000 rfl rfl rfl (by simp) (by simp) rfl
theorem img (d : Nat) (id : BitVec 16) (x y : Int) : Statement (.img d id x y) :=
  of_header 0x00 0x0000 rfl rfl rfl (by simp) (by simp) rfl
theorem glyph (d : Nat) (cov th : Byte) (x y : Int) : Statement (.glyph d cov th x y) :=
  of_header 0x00 0x0000 rfl rfl rfl (by simp) (by simp) rfl
theorem tonat (d : Nat) (x y : Int) : Statement (.tonat d x y) :=
  of_header 0x00 0xFFFF rfl rfl rfl (by simp) (by simp) rfl
theorem mkrgb (r g b : Byte) : Statement (.mkrgb r g b) :=
  of_header 0x00 0x0000 rfl rfl rfl (by simp) (by simp) rfl
theorem getr (c : Color) : Statement (.getr c) :=
  of_header 0xFF 0x0000 rfl rfl rfl (by simp) (by simp) rfl
theorem getg (c : Color) : Statement (.getg c) :=
  of_header 0xFF 0x0000 rfl rfl rfl (by simp) (by simp) rfl
theorem getb (c : Color) : Statement (.getb c) :=
  of_header 0xFF 0x0000 rfl rfl rfl (by simp) (by simp) rfl

end Sys2Proof.Laws.EncodesLegal
end

