-- ==== Sys2Proof/Machine/Asm.lean ====
section
/-! DEFINITION. The assembler syntax of 30_encoding R83 and the pseudo-instruction and default of R84.
A line is a list of characters; blanks around the mnemonic and the operands are skipped (log entry 23).
No part of the machine depends on this file. -/

namespace Sys2Proof.Machine

/-- The mnemonic of each opcode (30_encoding R79). -/
def Opcode.mnemonic : Opcode → List Char
  | .seld => ['S', 'E', 'L', 'D']
  | .selm => ['S', 'E', 'L', 'M']
  | .sela => ['S', 'E', 'L', 'A']
  | .initall => ['I', 'N', 'I', 'T', 'A', 'L', 'L']
  | .updall => ['U', 'P', 'D', 'A', 'L', 'L']
  | .updd => ['U', 'P', 'D', 'D']
  | .updm => ['U', 'P', 'D', 'M']
  | .init => ['I', 'N', 'I', 'T']
  | .upd => ['U', 'P', 'D']
  | .pwr => ['P', 'W', 'R']
  | .inv => ['I', 'N', 'V']
  | .clr => ['C', 'L', 'R']
  | .setpx => ['S', 'E', 'T', 'P', 'X']
  | .getpx => ['G', 'E', 'T', 'P', 'X']
  | .rect => ['R', 'E', 'C', 'T']
  | .img => ['I', 'M', 'G']
  | .glyph => ['G', 'L', 'Y', 'P', 'H']
  | .tonat => ['T', 'O', 'N', 'A', 'T']
  | .mkrgb => ['M', 'K', 'R', 'G', 'B']
  | .getr => ['G', 'E', 'T', 'R']
  | .getg => ['G', 'E', 'T', 'G']
  | .getb => ['G', 'E', 'T', 'B']

/-- The pseudo-instruction DESEL: `SELM 0` (R84). -/
def desel : Instr := .selm 0

/-- GLYPH's default threshold (R84). -/
def defaultThresh : Byte := 64

/-! ### Characters and numbers -/

/-- The value of a digit in any base up to 16. -/
def digitValue (ch : Char) : Option Nat :=
  if '0'.val ≤ ch.val ∧ ch.val ≤ '9'.val then some (ch.toNat - '0'.toNat)
  else if 'a'.val ≤ ch.val ∧ ch.val ≤ 'f'.val then some (ch.toNat - 'a'.toNat + 10)
  else if 'A'.val ≤ ch.val ∧ ch.val ≤ 'F'.val then some (ch.toNat - 'A'.toNat + 10)
  else none

/-- The digits `cs` in a base, after a value `acc`. -/
def parseDigits (base : Nat) : Nat → List Char → Option Nat
  | acc, [] => some acc
  | acc, ch :: cs =>
    match digitValue ch with
    | none => none
    | some v => if v < base then parseDigits base (acc * base + v) cs else none

/-- An unsigned integer: decimal, `0x` hex (R83), or `0b` binary as the examples of 44_bus_addressor
R203 and R208 write a mask. -/
def parseNat : List Char → Option Nat
  | [] => none
  | ['0', 'x'] => none
  | ['0', 'b'] => none
  | '0' :: 'x' :: cs => parseDigits 16 0 cs
  | '0' :: 'b' :: cs => parseDigits 2 0 cs
  | cs => parseDigits 10 0 cs

/-- A signed integer (R83). -/
def parseInt : List Char → Option Int
  | '-' :: cs => (parseNat cs).map fun n => -(n : Int)
  | cs => (parseNat cs).map fun n => (n : Int)

/-- The list without leading and trailing blanks. -/
def trim (cs : List Char) : List Char :=
  ((cs.dropWhile (· == ' ')).reverse.dropWhile (· == ' ')).reverse

/-- Split at commas outside parentheses; `depth` is the number of open parentheses, `cur` the operand so
far, last character first. -/
def splitOperands : Nat → List Char → List Char → List (List Char)
  | _, cur, [] => [trim cur.reverse]
  | depth, cur, ch :: cs =>
    if ch = ',' ∧ depth = 0 then trim cur.reverse :: splitOperands 0 [] cs
    else if ch = '(' then splitOperands (depth + 1) (ch :: cur) cs
    else if ch = ')' then splitOperands (depth - 1) (ch :: cur) cs
    else splitOperands depth (ch :: cur) cs

/-! ### Operands -/

/-- An unsigned operand of `w` bits. -/
def parseField (w : Nat) (cs : List Char) : Option (BitVec w) :=
  match parseNat cs with
  | none => none
  | some n => if n < 2 ^ w then some (BitVec.ofNat w n) else none

/-- A slot index (R73, R74). -/
def parseIndex (cs : List Char) : Option Nat := (parseField 8 cs).map BitVec.toNat

/-- A coordinate (R77). -/
def parseCoord (cs : List Char) : Option Int :=
  match parseInt cs with
  | none => none
  | some v => if fitsCoord v then some v else none

/-- `on` is 0 or 1 (R83). -/
def parseOn : List Char → Option Bool
  | ['0'] => some false
  | ['1'] => some true
  | _ => none

/-- A Color: a 16-bit value, or `rgb(r, g, b)` evaluated at assembly time (R83). -/
def parseColor (cs : List Char) : Option Color :=
  match cs with
  | 'r' :: 'g' :: 'b' :: '(' :: rest =>
    match rest.reverse with
    | ')' :: body =>
      match splitOperands 0 [] body.reverse with
      | [r, g, b] => do
        let r ← parseField 8 r
        let g ← parseField 8 g
        let b ← parseField 8 b
        some (makeRGB r g b)
      | _ => none
    | _ => none
  | _ => parseField 16 cs

/-! ### Lines -/

/-- The command of an opcode and its operands in the order of R83. -/
def assembleOperands (op : Opcode) (args : List (List Char)) : Option Instr :=
  match op, args with
  | .seld, [i] => (parseIndex i).map .seld
  | .selm, [m] => (parseField 32 m).map .selm
  | .sela, [] => some .sela
  | .initall, [] => some .initall
  | .updall, [] => some .updall
  | .updd, [i] => (parseIndex i).map .updd
  | .updm, [m] => (parseField 32 m).map .updm
  | .init, [d] => (parseIndex d).map .init
  | .upd, [d] => (parseIndex d).map .upd
  | .pwr, [d, o] => do some (.pwr (← parseIndex d) (← parseOn o))
  | .inv, [d, o] => do some (.inv (← parseIndex d) (← parseOn o))
  | .clr, [d, c] => do some (.clr (← parseIndex d) (← parseColor c))
  | .setpx, [d, x, y, c] => do
    some (.setpx (← parseIndex d) (← parseColor c) (← parseCoord x) (← parseCoord y))
  | .getpx, [d, x, y] => do
    some (.getpx (← parseIndex d) (← parseCoord x) (← parseCoord y))
  | .rect, [d, x1, y1, x2, y2, c] => do
    some (.rect (← parseIndex d) (← parseColor c) (← parseCoord x1) (← parseCoord y1)
      (← parseCoord x2) (← parseCoord y2))
  | .img, [d, id, x, y] => do
    some (.img (← parseIndex d) (← parseField 16 id) (← parseCoord x) (← parseCoord y))
  | .glyph, [d, x, y, cov] => do
    some (.glyph (← parseIndex d) (← parseField 8 cov) defaultThresh (← parseCoord x)
      (← parseCoord y))
  | .glyph, [d, x, y, cov, th] => do
    some (.glyph (← parseIndex d) (← parseField 8 cov) (← parseField 8 th) (← parseCoord x)
      (← parseCoord y))
  | .tonat, [d, x, y] => do
    some (.tonat (← parseIndex d) (← parseCoord x) (← parseCoord y))
  | .mkrgb, [r, g, b] => do
    some (.mkrgb (← parseField 8 r) (← parseField 8 g) (← parseField 8 b))
  | .getr, [c] => (parseColor c).map .getr
  | .getg, [c] => (parseColor c).map .getg
  | .getb, [c] => (parseColor c).map .getb
  | _, _ => none

/-- The command of one line, DESEL expanded (R83, R84). -/
def assembleLine (line : List Char) : Option Instr :=
  let body := trim line
  let name := body.takeWhile (· ≠ ' ')
  let rest := trim (body.dropWhile (· ≠ ' '))
  let args := if rest.isEmpty then [] else splitOperands 0 [] rest
  if name == ['D', 'E', 'S', 'E', 'L'] then
    if args.isEmpty then some desel else none
  else
    match Opcode.all.find? fun op => Opcode.mnemonic op == name with
    | none => none
    | some op => assembleOperands op args

/-- The words a line assembles to (R83). -/
def assembleWords (line : List Char) : Option (List Word) := (assembleLine line).map encode

end Sys2Proof.Machine
end

