-- ==== Sys2Proof/Tests/Slice0.lean ====
section
/-! SUPPORT. The model's own tests: well-formedness, decoding of words written out from the spec, one-step
tests against 95_test_vectors and the rules' examples, and for each statement with hypotheses a witness
that meets them. Expected values come from the spec file each section names. -/

namespace Sys2Proof.Tests

open Sys2Proof Sys2Proof.Machine

/-! ### WellFormed: one ill-formed term for each check -/

theorem test_wf_index_refused : (Instr.seld 256).wellFormed = false := by decide
theorem test_wf_index_refused_display : (Instr.clr 256 0).wellFormed = false := by decide
theorem test_wf_x_refused : (Instr.setpx 0 0 32768 0).wellFormed = false := by decide
theorem test_wf_y_refused : (Instr.getpx 0 0 (-32769)).wellFormed = false := by decide
theorem test_wf_x2_refused : (Instr.rect 0 0 0 0 32768 0).wellFormed = false := by decide
theorem test_wf_y2_refused : (Instr.rect 0 0 0 0 0 32768).wellFormed = false := by decide
theorem test_wf_bounds_accepted :
    (Instr.tonat 255 (-32768) 32767).wellFormed = true := by decide

/-! ### Decoding: words written out from 30_encoding R73-R79 and 95_test_vectors -/

theorem test_decode_seld : decode [0x01010000] = .instr (.seld 1) := by decide
theorem test_decode_selm : decode [0x02000000, 0x00000005] = .instr (.selm 5) := by decide
theorem test_decode_sela : decode [0x03000000] = .instr .sela := by decide
theorem test_decode_initall : decode [0x04000000] = .instr .initall := by decide
theorem test_decode_updall : decode [0x05000000] = .instr .updall := by decide
theorem test_decode_updd : decode [0x06FF0000] = .instr (.updd 255) := by decide
theorem test_decode_updm : decode [0x07000000, 0x80000001] = .instr (.updm 0x80000001) := by decide
theorem test_decode_init : decode [0x10020000] = .instr (.init 2) := by decide
theorem test_decode_upd : decode [0x11000000] = .instr (.upd 0) := by decide
theorem test_decode_pwr : decode [0x12030001] = .instr (.pwr 3 true) := by decide
theorem test_decode_inv : decode [0x13000000] = .instr (.inv 0 false) := by decide
theorem test_decode_clr : decode [0x2002001F] = .instr (.clr 2 0x001F) := by decide
theorem test_decode_setpx :
    decode [0x2100F800, 0x00080000] = .instr (.setpx 0 0xF800 8 0) := by decide
theorem test_decode_getpx : decode [0x22000000, 0x00000008] = .instr (.getpx 0 0 8) := by decide
theorem test_decode_rect :
    decode [0x23000007, 0xFFFEFFFE, 0x00010001] = .instr (.rect 0 7 (-2) (-2) 1 1) := by decide
theorem test_decode_img : decode [0x24000002, 0xFFFFFFFF] = .instr (.img 0 2 (-1) (-1)) := by decide
theorem test_decode_glyph :
    decode [0x2500C840, 0x00000000] = .instr (.glyph 0 200 64 0 0) := by decide
theorem test_decode_tonat : decode [0x26000000, 0x0002FFFF] = .instr (.tonat 0 2 (-1)) := by decide
theorem test_decode_mkrgb : decode [0x30123456] = .instr (.mkrgb 0x12 0x34 0x56) := by decide
theorem test_decode_getr : decode [0x310011AA] = .instr (.getr 0x11AA) := by decide
theorem test_decode_getg : decode [0x320011AA] = .instr (.getg 0x11AA) := by decide
theorem test_decode_getb : decode [0x330011AA] = .instr (.getb 0x11AA) := by decide

/-- 95 V2.6, V2.1, V2.2, V2.4, V2.5: reserved opcodes and nonzero reserved fields. -/
theorem test_decode_illegal :
    [0x08000000, 0x00000000, 0xFF000000, 0x310111AA, 0x26000001, 0x12000002, 0x03010000,
      0x01000001].all (fun h => decode [h, 0, 0] = .illegal) = true := by decide
theorem test_decode_truncated : decode [0x21000000] = .truncated 2 := by decide
theorem test_decode_truncated_rect : decode [0x23000000, 0x00000000] = .truncated 3 := by decide
theorem test_decode_end : decode [] = .ended := by decide

theorem test_table_word :
    decodeTableWord 32 0x23000007 = some (.rect 0 7 0 0 0 0) := by decide
theorem test_table_word_operands :
    decodeTableWord 96 0x0001000100050006_23000007 = some (.rect 0 7 5 6 1 1) := by decide
theorem test_table_word_illegal : decodeTableWord 32 0x08000000 = none := by decide

/-- No two rows of 30_encoding R79 share an opcode. -/
theorem test_opcodes_distinct : (Opcode.all.map Opcode.byte).Nodup := by decide

/-! ### Helpers: the test configuration of 95_test_vectors, with tokens for the opaque blocks -/

/-- The test configuration; the pulses are one event each and the delays 1 and 2. -/
def testCfg : Cfg :=
  { Board.cfg with
    images := [(1, ⟨2, 1, [0xF81F, 0x07E0]⟩), (2, ⟨2, 2, [0x1111, 0x2222, 0x3333, 0x4444]⟩),
      (3, ⟨2, 2, [0xF81F, 0xE01C, 0xF89F, 0xF81F]⟩), (4, ⟨2, 2, [0xF81F, 0xE01C, 0xF89F, 0xFFFF]⟩)]
    initTable7735 := []
    initTable7789 := []
    panelResetPulse := [.pin .panelReset false]
    globalResetPulse := [.pin .reset false]
    tSwReset := 1
    tSlpOut := 2
    scanOrder := Board.scanTable fun _ _ _ => ⟨0, false⟩ }

/-- A panel of a variant, native size, rotation and mirror. -/
def panelOf (v : Variant) (w h : Nat) (r : Rotation) (m : Mirror) : Panel :=
  ⟨v, w, h, r, m, 0, 0, false⟩

/-- A driver record after INIT. -/
def readyOn : Driver := ⟨.ready, some true, some false⟩

/-- A chain of `l` positions whose outputs select `i`, as a walk leaves it. -/
def chainAt (l i : Nat) : Chain :=
  let t := (List.range l).map fun j => if j = i then Level.low else Level.high
  ⟨(t.headD .high :: t).take l, t, .low, t.headD .high⟩

/-- A block at reset with the given panels and buffers. -/
def boot (panels : List (Option Panel)) (fbInit : Nat → Memory) (stream : List Word) : State :=
  State.resetWith testCfg panels fbInit stream

/-- A block with one display. -/
def single (p : Panel) (d : Driver) (fb : Memory) (c : Chain) : State :=
  { boot [some p] (fun _ => []) [] with slots := [some ⟨p, d, fb⟩], chain := c }

/-- A 4×3 panel with a rotation and mirror (95 V2.2). -/
def grid (r : Rotation) (m : Mirror) : State :=
  boot [some (panelOf .st7735 4 3 r m)] (fun _ => []) []

/-- An 8×8 panel (95 V2.3). -/
def canvas8 : State := boot [some (panelOf .st7735 8 8 .r0 .none)] (fun _ => []) []

/-- A 2×2 panel holding `c` everywhere (95 V2.3). -/
def canvas2 (c : Color) : State :=
  boot [some (panelOf .st7735 2 2 .r0 .none)] (fun _ => Memory.fill [] 4 c) []

/-- A Ready 1×1 panel of a variant holding 0xABCD, its slot selected (95 V2.4). -/
def ready1 (v : Variant) (on : Bool) : State :=
  single (panelOf v 1 1 .r0 .none) ⟨.ready, some on, some false⟩ [(0, 0xABCD)] (chainAt 2 0)

/-- Two Ready 1×1 panels (95 V2.5). -/
def ready2 : State :=
  { boot [some (panelOf .st7735 1 1 .r0 .none), some (panelOf .st7735 1 1 .r0 .none)]
      (fun _ => []) [] with
    slots := [some ⟨panelOf .st7735 1 1 .r0 .none, readyOn, [(0, 0x1234)]⟩,
      some ⟨panelOf .st7735 1 1 .r0 .none, readyOn, [(0, 0xABCD)]⟩] }

/-- Three slots, the middle one absent, not yet initialised (95 P3). -/
def three : State :=
  boot [some (panelOf .st7789 2 1 .r0 .none), none, some (panelOf .st7789 2 1 .r0 .none)]
    (fun _ => []) []

/-- The next state's last result. -/
def lastOf : Outcome → Option Result
  | .next t => t.results.getLast?
  | .fault _ => none
  | .refused _ => none

/-- The next state's frame buffer of slot `k`. -/
def fbOf (k : Nat) : Outcome → Option Memory
  | .next t => t.fb k
  | .fault _ => none
  | .refused _ => none

/-- The events a command of `s` emitted. -/
def newEvents (s : State) : Outcome → List Event
  | .next t => t.trace.drop s.trace.length
  | .fault _ => []
  | .refused _ => []

/-- The next state's fault record. -/
def faultOf : Outcome → Option FaultRecord
  | .next t => t.fault
  | .fault _ => none
  | .refused _ => none

/-- The next state's driver record of slot `k`. -/
def driverOf (k : Nat) : Outcome → Option Driver
  | .next t => t.driver k
  | .fault _ => none
  | .refused _ => none

/-- The next state's chain. -/
def chainOf : Outcome → Option Chain
  | .next t => some t.chain
  | .fault _ => none
  | .refused _ => none

/-- A result with a value. -/
def okV (v : Value) : Option Result := some ⟨.ok, some v⟩

/-- A result without a value. -/
def okN : Option Result := some ⟨.ok, none⟩

/-! ### Codec (95 V2.1, 30_encoding R92) -/

theorem test_mkrgb :
    lastOf (exec (.mkrgb 0x12 0x34 0x56) canvas8) = okV (.color 0x11AA) := by decide
theorem test_mkrgb_low_bits : makeRGB 7 3 7 = 0x0000 ∧ makeRGB 8 4 8 = 0x0821 := by decide
theorem test_getr : lastOf (exec (.getr 0x11AA) canvas8) = okV (.channel 0x10) := by decide
theorem test_getg : lastOf (exec (.getg 0x11AA) canvas8) = okV (.channel 0x34) := by decide
theorem test_getb : lastOf (exec (.getb 0x11AA) canvas8) = okV (.channel 0x50) := by decide
theorem test_get_edges :
    getR 0x07FF = 0x00 ∧ getG 0xF81F = 0x00 ∧ getB 0xFFE0 = 0x00 ∧ getG 0xFFFF = 0xFC := by decide
theorem test_transparent :
    [0xF81F, 0xE01C, 0xD81F, 0xF89F, 0xF8BF, 0xF800, 0xFFFF].map transparent =
      [true, true, false, true, false, false, false] := by decide
theorem test_named_colors :
    [Named.red, Named.blue, Named.green, Named.magenta] = [0xF800, 0x001F, 0x07E0, 0xF81F] := by
  decide

/-! ### Transform (95 V2.2) -/

theorem test_tonat_rotations :
    [lastOf (exec (.tonat 0 1 2) (grid .r0 .none)), lastOf (exec (.tonat 0 2 1) (grid .r90 .none)),
      lastOf (exec (.tonat 0 1 2) (grid .r180 .none)),
      lastOf (exec (.tonat 0 2 1) (grid .r270 .none))] =
    [okV (.point 1 2), okV (.point 2 2), okV (.point 2 0), okV (.point 1 0)] := by decide
theorem test_tonat_mirrors :
    [lastOf (exec (.tonat 0 1 2) (grid .r0 .horizontal)),
      lastOf (exec (.tonat 0 1 2) (grid .r0 .vertical)),
      lastOf (exec (.tonat 0 1 2) (grid .r0 .origin)),
      lastOf (exec (.tonat 0 2 3) (grid .r90 .horizontal)),
      lastOf (exec (.tonat 0 0 0) (grid .r270 .vertical))] =
    [okV (.point 2 2), okV (.point 1 0), okV (.point 2 0), okV (.point 3 2), okV (.point 0 0)] := by
  decide
theorem test_tonat_rejections :
    [lastOf (exec (.tonat 0 4 0) (grid .r0 .none)), lastOf (exec (.tonat 0 3 0) (grid .r90 .none)),
      lastOf (exec (.tonat 0 2 (-1)) (grid .r90 .none)),
      lastOf (exec (.tonat 0 (-1) 0) (grid .r0 .none)),
      lastOf (exec (.tonat 0 0 4) (grid .r90 .none))].all (· = some ⟨.outOfBounds, none⟩) = true := by
  decide

/-! ### Canvas (95 V2.3) -/

theorem test_clr : fbOf 0 (exec (.clr 0 0x1234) (canvas2 0)) =
    some [(0, 0x1234), (1, 0x1234), (2, 0x1234), (3, 0x1234)] := by decide
theorem test_clr_zero_lists_nothing : fbOf 0 (exec (.clr 0 0) (canvas2 7)) = some [] := by decide
theorem test_rect_empty : fbOf 0 (exec (.rect 0 7 5 5 5 5) canvas8) = some [] := by decide
theorem test_rect_one : fbOf 0 (exec (.rect 0 7 5 5 5 6) canvas8) = some [(45, 7)] := by decide
theorem test_rect_reversed : fbOf 0 (exec (.rect 0 7 6 5 5 6) canvas8) = some [] := by decide
theorem test_rect_clipped :
    fbOf 0 (exec (.rect 0 7 (-2) (-2) 1 1) canvas8) = some [(0, 7), (1, 7)] := by decide
theorem test_rect_rotated :
    fbOf 0 (exec (.rect 0 0x001F 0 0 1 1) (grid .r90 .horizontal)) =
      some [(0, 0x001F), (4, 0x001F)] := by decide
theorem test_setpx : fbOf 0 (exec (.setpx 0 0xF800 7 7) canvas8) = some [(63, 0xF800)] := by decide
theorem test_setpx_outside :
    lastOf (exec (.setpx 0 0xF800 8 0) canvas8) = some ⟨.outOfBounds, none⟩ := by decide
theorem test_setpx_unlisted_value_takes_the_cell_off :
    fbOf 0 (exec (.setpx 0 0 1 0) (canvas2 5)) = some [(0, 5), (2, 5), (3, 5)] := by decide
theorem test_getpx :
    lastOf (exec (.getpx 0 1 1) (canvas2 0x5A5A)) = okV (.color 0x5A5A) := by decide
theorem test_getpx_outside :
    lastOf (exec (.getpx 0 0 8) canvas8) = some ⟨.outOfBounds, none⟩ := by decide
theorem test_img_clipped :
    fbOf 0 (exec (.img 0 2 (-1) (-1)) (canvas2 0)) = some [(0, 0x4444)] := by decide
theorem test_img_chroma :
    fbOf 0 (exec (.img 0 4 0 0) (canvas2 0x5A5A)) =
      some [(0, 0x5A5A), (1, 0x5A5A), (2, 0x5A5A), (3, 0xFFFF)] := by decide
theorem test_glyph : fbOf 0 (exec (.glyph 0 200 64 0 0) (canvas2 0x1234)) =
    some [(0, 0xCE59), (1, 0x1234), (2, 0x1234), (3, 0x1234)] := by decide
theorem test_glyph_at_threshold :
    fbOf 0 (exec (.glyph 0 64 64 1 0) (canvas2 0x1234)) = some (Memory.fill [] 4 0x1234) := by decide

/-! ### Panel driver (95 V2.4, 43_panel_driver R176) -/

theorem test_init :
    newEvents (ready1 .st7735 true) (exec (.init 0) (ready1 .st7735 true)) =
      [.pin .panelReset false, .cmd 0x01 [0], .delay 1, .cmd 0x11 [0], .delay 2, .cmd 0x36 [0],
        .data 0x00 [0]] := by decide
theorem test_init_record :
    driverOf 0 (exec (.init 0)
      { grid .r0 .none with chain := chainAt 2 0 }) = some readyOn := by decide
theorem test_inv_variants :
    [newEvents (ready1 .st7735 true) (exec (.inv 0 true) (ready1 .st7735 true)),
      newEvents (ready1 .st7789 true) (exec (.inv 0 true) (ready1 .st7789 true)),
      newEvents (ready1 .st7735 true) (exec (.inv 0 false) (ready1 .st7735 true)),
      newEvents (ready1 .st7789 true) (exec (.inv 0 false) (ready1 .st7789 true))] =
    [[.cmd 0x21 [0]], [.cmd 0x20 [0]], [.cmd 0x20 [0]], [.cmd 0x21 [0]]] := by decide
theorem test_pwr :
    newEvents (ready1 .st7735 true) (exec (.pwr 0 false) (ready1 .st7735 true)) = [.cmd 0x28 [0]] ∧
      driverOf 0 (exec (.pwr 0 false) (ready1 .st7735 true)) =
        some ⟨.ready, some false, some false⟩ := by decide
theorem test_upd_when_off :
    newEvents (ready1 .st7735 false) (exec (.upd 0) (ready1 .st7735 false)) =
      [.cmd 0x29 [0], .cmd 0x2A [0], .data 0 [0], .data 0 [0], .data 0 [0], .data 0 [0],
        .cmd 0x2B [0], .data 0 [0], .data 0 [0], .data 0 [0], .data 0 [0], .cmd 0x2C [0],
        .data 0xAB [0], .data 0xCD [0]] := by decide
theorem test_upd_offsets :
    let s := single { panelOf .st7735 2 1 .r0 .none with colOffset := 2, rowOffset := 1 } readyOn
      [(0, 0xF800), (1, 0x001F)] (chainAt 2 0)
    newEvents s (exec (.upd 0) s) =
      [.cmd 0x2A [0], .data 0 [0], .data 2 [0], .data 0 [0], .data 3 [0],
        .cmd 0x2B [0], .data 0 [0], .data 1 [0], .data 0 [0], .data 1 [0], .cmd 0x2C [0],
        .data 0xF8 [0], .data 0x00 [0], .data 0x00 [0], .data 0x1F [0]] := by decide
theorem test_madctl_bits :
    madctl { testCfg with scanOrder := Board.scanTable fun _ r _ => ⟨if r = .r90 then 2 else 0, true⟩ }
      { panelOf .st7789 1 1 .r90 .origin with bgr := true } = 0xA8 := by decide

/-! ### Chain (95 V2.5) -/

/-- Three slots, none present, the chain unknown. -/
def bus3 : State := boot [none, none, none] (fun _ => []) []

/-- Levels written as in 95: 0, 1. -/
def lv (l : List Nat) : List Level := l.map fun b => if b = 0 then .low else .high

theorem test_seld_events : newEvents bus3 (exec (.seld 1) bus3) =
    [.pin .clock false,
      .pin .data true, .pin .clock true, .pin .clock false,
      .pin .data true, .pin .clock true, .pin .clock false,
      .pin .data false, .pin .clock true, .pin .clock false,
      .pin .data true, .pin .clock true, .pin .clock false,
      .pin .clock true, .pin .clock false] := by decide
theorem test_seld_chain : chainOf (exec (.seld 1) bus3) =
    some ⟨lv [1, 1, 0, 1], lv [1, 0, 1, 1], .low, .high⟩ := by decide
theorem test_seld_edges : chainOf (exec (.seld 0) bus3) =
    some ⟨lv [0, 0, 1, 1], lv [0, 1, 1, 1], .low, .low⟩ := by decide
theorem test_selm_chain : chainOf (exec (.selm 5) bus3) =
    some ⟨lv [0, 0, 1, 0], lv [0, 1, 0, 1], .low, .low⟩ := by decide
theorem test_desel_chain : chainOf (exec desel bus3) =
    some ⟨lv [1, 1, 1, 1], lv [1, 1, 1, 1], .low, .high⟩ := by decide
theorem test_sela_selects_all :
    (chainOf (exec .sela bus3)).map Chain.selected = some [0, 1, 2, 3] := by decide
theorem test_initall_skips_absent :
    (newEvents three (exec .initall three)).filter (fun e => match e with
      | .cmd b _ => decide (b = 0x01)
      | _ => false) = [.cmd 0x01 [0], .cmd 0x01 [2]] := by decide
theorem test_initall_events_count : (newEvents three (exec .initall three)).length =
    1 + 3 * 15 + 2 * 7 := by decide
theorem test_updall_counts :
    let evs := newEvents ready2 (exec .updall ready2)
    (evs.filter fun e => match e with
      | .pin _ _ => true
      | _ => false).length = 24 ∧ evs.length = 24 + 26 := by decide
theorem test_updd_clears : fbOf 0 (exec (.updd 0) (ready1 .st7735 true)) = some [] := by decide
theorem test_updd_absent :
    lastOf (exec (.updd 1) three) = some ⟨.absent, none⟩ ∧
      (chainOf (exec (.updd 1) three)).map Chain.selected = some [1] := by decide
theorem test_updm_clears_masked :
    fbOf 1 (exec (.updm 2) ready2) = some [] ∧
      fbOf 0 (exec (.updm 2) ready2) = some [(0, 0x1234)] := by decide

/-! ### Faults and steps (95 V2.6, P4, P5) -/

/-- One 4×3 display and a stream. -/
def withStream (ws : List Word) : State :=
  boot [some (panelOf .st7735 4 3 .r0 .none)] (fun _ => []) ws

theorem test_fault_illegal : faultOf (step (withStream [0x08000000])) =
    some ⟨.illegalCommand, 0, [0x08000000]⟩ := by decide
theorem test_fault_truncated : faultOf (step (withStream [0x23000000, 0])) =
    some ⟨.truncatedCommand, 0, [0x23000000, 0]⟩ := by decide
theorem test_fault_chain_unknown : faultOf (step (withStream [0x10000000])) =
    some ⟨.chainUnknown, 0, [0x10000000]⟩ := by decide
theorem test_fault_not_initialized : faultOf (step (withStream [0x06000000])) =
    some ⟨.notInitialized, 0, [0x06000000]⟩ := by decide
theorem test_fault_bad_image : faultOf (step (withStream [0x24000007, 0, 1])) =
    some ⟨.badImage, 0, [0x24000007, 0]⟩ := by decide
theorem test_fault_bad_index_first : faultOf (step (withStream [0x10010000])) =
    some ⟨.badIndex, 0, [0x10010000]⟩ := by decide
theorem test_fault_mask : faultOf (step (withStream [0x02000000, 2])) =
    some ⟨.badIndex, 0, [0x02000000, 2]⟩ := by decide
theorem test_fault_codes :
    [FaultCode.illegalCommand, .badIndex, .notInitialized, .chainUnknown, .badImage,
      .truncatedCommand, .halInitFailure].map FaultCode.code =
      [0x10, 0x11, 0x12, 0x13, 0x14, 0x15, 0x16] := by decide
theorem test_step_sequences :
    (match step { withStream [0x20001234, 0x10000000] with cp := 1 } with
      | .next t => (t.cp, t.results)
      | _ => (9, [])) = (1, []) := by decide
theorem test_reset_pointer : State.reset.cp = 0 ∧ State.reset.stream = [] := by decide
theorem test_fetch_word_runs :
    lastOf (step (State.reset.withFetchWord 32 0x310011AA)) = okV (.channel 0x10) := by rfl
theorem test_scan_table (v : Variant) (r : Rotation) (m : Mirror) :
    Board.cfg.scanOrderOf v r m = ⟨Config.scanField v r m, Config.scanSwap v r m⟩ := by
  cases v <;> cases r <;> cases m <;> rfl

/-! ### Assembler (30_encoding R83, R84; words of 95) -/

theorem test_asm_rect : assembleWords "RECT 0, 20, 40, 100, 50, 0x001F".toList =
    some [0x2300001F, 0x00140028, 0x00640032] := by decide
theorem test_asm_negative : assembleWords "IMG 0, 2, -1, -1".toList =
    some [0x24000002, 0xFFFFFFFF] := by decide
theorem test_asm_rgb : assembleWords "SETPX 0, 0, 0, rgb(255, 0, 0)".toList =
    some [0x2100F800, 0] := by decide
theorem test_asm_desel : assembleWords "DESEL".toList = some [0x02000000, 0] := by decide
theorem test_asm_glyph_default : assembleWords "GLYPH 0, 0, 0, 200".toList =
    some [0x2500C840, 0] := by decide
theorem test_asm_mask : assembleWords "UPDM 0b101".toList = some [0x07000000, 5] := by decide
theorem test_asm_refuses : assembleLine "SELD 256".toList = none := by decide

/-! ### Witnesses: for each statement with hypotheses, a state and operands that meet them together -/

/-- One 4×3 display, not initialised, its slot selected. -/
def selected1 : State := { grid .r90 .horizontal with chain := chainAt 2 0 }

/-- Slot 0 not initialised and slot 1 absent. -/
def absent2 : State := boot [some (panelOf .st7735 4 3 .r0 .none), none] (fun _ => []) []

/-- A command answers a next state. -/
def runs : Outcome → Bool
  | .next _ => true
  | .fault _ => false
  | .refused _ => false

theorem test_witness_DecodeOfEncodeGivesCommand :
    (Instr.rect 255 0xFFFF (-32768) 32767 32767 (-32768)).wellFormed = true ∧
      (Instr.seld 255).wellFormed = true ∧ (Instr.selm 0xFFFFFFFF).wellFormed = true := by decide
theorem test_witness_EncodeOfDecodeGivesWords :
    decode [0x23FFFFFF, 0x80007FFF, 0x7FFF8000, 0] =
      .instr (.rect 255 0xFFFF (-32768) 32767 32767 (-32768)) := by decide
theorem test_witness_DecoderRejectsExactlyIllegalHeaders :
    IllegalHeader 0x34000000 ∧ IllegalHeader 0x12000002 ∧
      (¬ IllegalHeader 0x23000000 ∧ ([0] : List Word).length + 1 < tableLen 0x23000000) ∧
      (¬ IllegalHeader 0x23000000 ∧ tableLen 0x23000000 ≤ ([0, 0] : List Word).length + 1) := by
  unfold IllegalHeader ReservedOpcode ReservedFieldSet
  refine ⟨?_, ?_, ⟨?_, ?_⟩, ?_, ?_⟩ <;> decide
theorem test_witness_StepRunsDecodedCommand :
    (withStream [0x31000000]).fault = none ∧
      decode ((withStream [0x31000000]).stream.drop (withStream [0x31000000]).cp) =
        .instr (.getr 0) := by decide
theorem test_witness_StepTakesDecoderFaults :
    (withStream [0x08000000]).fault = none ∧
      (withStream [0x08000000]).stream.drop 0 = [0x08000000] ∧ IllegalHeader 0x08000000 ∧
      (withStream [0x21000000]).stream.drop 0 = [0x21000000] ∧ ¬ IllegalHeader 0x21000000 ∧
      ([] : List Word).length + 1 < tableLen 0x21000000 := by
  unfold IllegalHeader ReservedOpcode ReservedFieldSet
  refine ⟨?_, ?_, ?_, ?_, ?_, ?_⟩ <;> decide
theorem test_witness_StepStopsExactlyWhenFaultedOrEnded :
    ((withStream [0]).faulted .badIndex 1).fault = some ⟨.badIndex, 0, [0]⟩ ∧
      ((withStream []).fault = none ∧ (withStream []).stream.length ≤ (withStream []).cp) ∧
      ((withStream [0]).fault = none ∧ (withStream [0]).cp < (withStream [0]).stream.length) := by
  decide
theorem test_witness_TransformIsBijectionOfGrids :
    inLogical (panelOf .st7735 4 3 .r90 .vertical) 2 3 ∧
      inNative (panelOf .st7735 4 3 .r90 .vertical) 3 2 ∧
      nativeOf (panelOf .st7735 4 3 .r90 .vertical) 2 3 = (0, 0) := by decide
theorem test_witness_LogicalPixelsAndCellsCorrespond :
    nativeIndex (panelOf .st7735 4 3 .r180 .none) 0 0 = some 11 := by decide
theorem test_witness_TonatReturnsNativeCoordinate :
    ∃ q, (grid .r90 .none).display 0 = some q ∧ inLogical q.panel 2 3 ∧ ¬ inLogical q.panel 3 3 :=
  ⟨_, rfl, by decide, by decide⟩
theorem test_witness_IndexBeyondSlotsIsBadIndex :
    formatDOperand (.clr 1 0) = some 1 ∧ canvas8.numSlots ≤ 1 ∧
      BitVec.getLsbD (2 : Word) 1 = true := by decide
theorem test_witness_AbsentSlotReturnsAbsent :
    1 < absent2.numSlots ∧ absent2.display 1 = none ∧ formatDOperand (.upd 1) = some 1 ∧
      absent2.chain.sr.length = absent2.numSlots + 1 := by decide
theorem test_witness_DriverCommandBeforeInitIsNotInitialized :
    ∃ q, absent2.display 0 = some q ∧ q.driver.lifecycle ≠ .ready ∧
      BitVec.getLsbD (3 : Word) 0 = true ∧
      ∀ j, absent2.numSlots ≤ j → BitVec.getLsbD (3 : Word) j = false := by
  refine ⟨_, rfl, by decide, by decide, fun j hj => ?_⟩
  have hj : 2 ≤ j := hj
  rcases Nat.lt_or_ge j 32 with h | h
  · exact (by decide : ∀ i : Fin 32, 2 ≤ i.val → BitVec.getLsbD (3 : Word) i.val = false) ⟨j, h⟩ hj
  · exact BitVec.getLsbD_of_ge _ _ h
theorem test_witness_SpiByteWithUnknownChainFaults :
    ∃ q, ready2.display 1 = some q ∧ .unknown ∈ ready2.chain.out ∧ q.driver.lifecycle = .ready :=
  ⟨_, rfl, by decide, by decide⟩
theorem test_witness_MissingImageIsBadImage :
    (canvas8.display 0).isSome = true ∧ canvas8.cfg.image 7 = none := by decide
theorem test_witness_ClrFillsEveryCell : (selected1.display 0).isSome = true := by decide
theorem test_witness_SetpxWritesOnePixel :
    ∃ q, selected1.display 0 = some q ∧ inLogical q.panel 2 3 ∧ ¬ inLogical q.panel 2 4 :=
  ⟨_, rfl, by decide, by decide⟩
theorem test_witness_GetpxReadsOnePixel :
    ∃ q, selected1.display 0 = some q ∧ inLogical q.panel 0 0 ∧ ¬ inLogical q.panel (-1) 0 :=
  ⟨_, rfl, by decide, by decide⟩
theorem test_witness_GetpxAfterSetpxReturnsTheColor :
    ∃ q, selected1.display 0 = some q ∧ inLogical q.panel 2 0 := ⟨_, rfl, by decide⟩
theorem test_witness_RectFillsInclusiveXHalfOpenY :
    ∃ q, selected1.display 0 = some q ∧ nativeIndex q.panel 2 3 = some 11 ∧
      q.panel.pixWidth * q.panel.pixHeight ≤ 12 := ⟨_, rfl, by decide, by decide⟩

/-- Image 4 of the test configuration. -/
def img4 : Image := ⟨2, 2, [0xF81F, 0xE01C, 0xF89F, 0xFFFF]⟩

/-- The panel of `selected1`. -/
def panel1 : Panel := panelOf .st7735 4 3 .r90 .horizontal

theorem test_witness_ImgDrawsOpaquePixels :
    selected1.panel 0 = some panel1 ∧ selected1.cfg.image 4 = some img4 ∧ 1 < img4.w ∧ 1 < img4.h :=
  ⟨rfl, rfl, by decide, by decide⟩
theorem test_witness_ImgDrawsOpaquePixels_drawn :
    img4.pix[1 * img4.w + 1]? = some 0xFFFF ∧ transparent 0xFFFF = false ∧
      nativeIndex panel1 (0 + 1) (0 + 1) = some 5 := by decide
theorem test_witness_ImgDrawsOpaquePixels_skipped :
    img4.pix[0 * img4.w + 0]? = some 0xF81F ∧ transparent 0xF81F = true ∧
      nativeIndex panel1 0 0 = some 0 := by decide
theorem test_witness_ImgDrawsOpaquePixels_beside :
    (0 : Int) + img4.w ≤ 2 ∧ (nativeIndex panel1 2 0).isSome = true ∧ 4 * 3 ≤ 12 := by decide
theorem test_witness_ChromaKeyImageLeavesBufferUnchanged :
    (selected1.display 0).isSome = true ∧
      selected1.cfg.image 3 = some ⟨2, 2, [0xF81F, 0xE01C, 0xF89F, 0xF81F]⟩ ∧
      ∀ c ∈ ([0xF81F, 0xE01C, 0xF89F, 0xF81F] : List Color), transparent c = true :=
  ⟨by decide, rfl, List.all_eq_true.mp (by decide)⟩
theorem test_witness_GlyphCutsOverAtThreshold :
    ∃ q, selected1.display 0 = some q ∧ inLogical q.panel 1 1 ∧ ¬ inLogical q.panel 3 0 ∧
      (64 : Byte).toNat < (65 : Byte).toNat ∧ ¬ (64 : Byte).toNat < (64 : Byte).toNat :=
  ⟨_, rfl, by decide, by decide, by decide, by decide⟩
theorem test_witness_DrawingCommandsKeepBusAndDrivers :
    drawingOperand (.setpx 0 7 0 0) = some 0 ∧ runs (exec (.setpx 0 7 0 0) selected1) = true ∧
      drawingOperand (.img 0 9 0 0) = some 0 ∧ runs (exec (.img 0 9 0 0) selected1) = true := by
  decide
theorem test_witness_DrawingCommandsIgnoreTheBus :
    drawingOperand (.getpx 0 0 0) = some 0 ∧ runs (exec (.getpx 0 0 0) selected1) = true := by
  decide
theorem test_witness_InitRunsTheSequenceAndEndsReady :
    (selected1.display 0).isSome = true ∧ selected1.sel = some [0] := by decide
theorem test_witness_UpdStreamsWindowAndCells :
    ∃ q, (ready1 .st7735 false).display 0 = some q ∧ q.driver.lifecycle = .ready ∧
      (ready1 .st7735 false).sel = some [0] := ⟨_, rfl, by decide, by decide⟩
theorem test_witness_UpdEmitsCountedSpiEvents :
    ∃ q, (ready1 .st7735 false).display 0 = some q ∧
      q.driver = ⟨.ready, some false, q.driver.inverted⟩ ∧
      (ready1 .st7735 false).chain.known = true ∧
      runs (exec (.upd 0) (ready1 .st7735 false)) = true :=
  ⟨_, rfl, by decide, by decide, by decide⟩

/-- `ready1` with the other byte order on the wire. -/
def littleEndian1 : State :=
  { ready1 .st7789 true with cfg := { testCfg with wireByteOrder := .littleEndian } }

theorem test_witness_PixelsGoOutAsWireBytesInIndexOrder :
    ∃ q, (ready1 .st7789 true).display 0 = some q ∧ q.driver.lifecycle = .ready ∧
      (ready1 .st7789 true).sel = some [0] ∧
      (ready1 .st7789 true).cfg.wireByteOrder = .bigEndian ∧
      runs (exec (.upd 0) (ready1 .st7789 true)) = true ∧
      0 < q.panel.pixWidth * q.panel.pixHeight :=
  ⟨_, rfl, by decide, by decide, by decide, by decide, by decide⟩
theorem test_witness_PixelsGoOutAsWireBytesInIndexOrder_little :
    ∃ q, littleEndian1.display 0 = some q ∧ q.driver.lifecycle = .ready ∧
      littleEndian1.sel = some [0] ∧ littleEndian1.cfg.wireByteOrder = .littleEndian ∧
      runs (exec (.upd 0) littleEndian1) = true ∧ 0 < q.panel.pixWidth * q.panel.pixHeight :=
  ⟨_, rfl, by decide, by decide, by decide, by decide, by decide⟩
theorem test_witness_PwrSendsAndSetsOn :
    ∃ q, (ready1 .st7735 true).display 0 = some q ∧ q.driver.lifecycle = .ready ∧
      (ready1 .st7735 true).sel = some [0] := ⟨_, rfl, by decide, by decide⟩
theorem test_witness_InvSendsByPolarityAndSetsInverted :
    ∃ q, (ready1 .st7789 true).display 0 = some q ∧ q.driver.lifecycle = .ready ∧
      (ready1 .st7789 true).sel = some [0] ∧
      (ready1 .st7789 true).cfg.invertPolarity q.panel.variant = .opposite :=
  ⟨_, rfl, by decide, by decide, by decide⟩
theorem test_witness_ClockRiseLatchesAndShifts :
    (chainAt 4 1).clock = .low ∧ 3 < (chainAt 4 1).sr.length ∧ 0 < (chainAt 4 1).sr.length ∧
      bus3.chain.clock ≠ .low := by decide
theorem test_witness_WalkLeavesTargetInOutputs :
    bus3.chain.sr.length = (true :: [false, true, true]).length := by decide
theorem test_witness_SeldSelectsOnePosition :
    2 < bus3.numSlots ∧ bus3.chain.sr.length = bus3.numSlots + 1 := by decide
theorem test_witness_SelmSelectsTheMask :
    (∀ j, absent2.numSlots ≤ j → BitVec.getLsbD (3 : Word) j = false) ∧
      absent2.chain.sr.length = absent2.numSlots + 1 := by
  obtain ⟨_, _, _, _, h⟩ := test_witness_DriverCommandBeforeInitIsNotInitialized
  exact ⟨h, by decide⟩
theorem test_witness_SelaSelectsEveryPosition :
    bus3.chain.sr.length = bus3.numSlots + 1 := by decide
theorem test_witness_InitallInitialisesEveryPresentDisplay :
    three.chain.sr.length = three.numSlots + 1 ∧ 0 < three.numSlots := by decide

/-- Every display of `ready2` is Ready. -/
theorem ready2_ready (k : Nat) (q : Display) (h : ready2.display k = some q) :
    q.driver.lifecycle = .ready := by
  match k, h with
  | 0, h => cases h; rfl
  | 1, h => cases h; rfl
  | k + 2, h => cases h

theorem test_witness_UpdallUpdatesEveryPresentDisplay :
    ready2.chain.sr.length = ready2.numSlots + 1 ∧
      ∀ k q, ready2.display k = some q → q.driver.lifecycle = .ready :=
  ⟨by decide, ready2_ready⟩
theorem test_witness_UpddUpdatesThenClears :
    ∃ q, ready2.display 1 = some q ∧ q.driver.lifecycle = .ready ∧
      ready2.chain.sr.length = ready2.numSlots + 1 := ⟨_, rfl, by decide, by decide⟩
theorem test_witness_UpdmUpdatesThenClearsTheMask :
    (∀ j, ready2.numSlots ≤ j → BitVec.getLsbD (3 : Word) j = false) ∧
      (∀ k q, BitVec.getLsbD (3 : Word) k = true → ready2.display k = some q →
        q.driver.lifecycle = .ready) ∧
      ready2.chain.sr.length = ready2.numSlots + 1 ∧ (ready2.display 1).isSome = true ∧
      BitVec.getLsbD (3 : Word) 1 = true ∧ BitVec.getLsbD (3 : Word) 2 = false :=
  ⟨test_witness_SelmSelectsTheMask.1, fun k q _ h => ready2_ready k q h, by decide, by decide,
    by decide, by decide⟩
theorem test_witness_UpdmUpdatesThenClearsTheMask_highest :
    BitVec.getLsbD (3 : Word) 1 = true ∧ ∀ k, 1 < k → BitVec.getLsbD (3 : Word) k = false :=
  ⟨by decide, fun k hk => test_witness_UpdmUpdatesThenClearsTheMask.1 k hk⟩
theorem test_witness_UpdmUpdatesThenClearsTheMask_zero :
    (∀ j, ready2.numSlots ≤ j → BitVec.getLsbD (0 : Word) j = false) ∧
      (∀ k q, BitVec.getLsbD (0 : Word) k = true → ready2.display k = some q →
        q.driver.lifecycle = .ready) ∧
      ready2.chain.sr.length = ready2.numSlots + 1 :=
  ⟨fun j _ => by simp, fun k q h => by simp at h, by decide⟩

/-- Two Ready displays with slot 1 selected. -/
def ready2At1 : State := { ready2 with chain := chainAt 3 1 }

theorem test_witness_PanelBytesReachExactlyTheSelectedPanels :
    ∃ q, ready2At1.display 0 = some q ∧ ready2At1.sel = some [1] ∧ q.driver.lifecycle = .ready :=
  ⟨_, rfl, by decide, by decide⟩
theorem test_witness_PanelBytesReachExactlyTheSelectedPanels_reached :
    (ready2At1.display 1).isSome = true ∧ 1 ∈ [1] ∧ (ready2At1.display 0).isSome = true ∧
      0 ∉ [1] := by decide
theorem test_witness_PanelBytesReachExactlyTheSelectedPanels_init :
    (selected1.display 0).isSome = true ∧ selected1.sel = some [0] ∧
      (initTrace testCfg panel1 [0]).filter Event.isByte =
        [.cmd 0x01 [0], .cmd 0x11 [0], .cmd 0x36 [0], .data 0x00 [0]] := by decide
theorem test_witness_FaultsComeOnlyFromTheirCommands :
    canvas8.fault = none ∧ ready2.fault = none ∧
      [faultOf (exec (.seld 1) canvas8), faultOf (exec (.upd 0) canvas8),
        faultOf (exec (.init 0) canvas8), faultOf (exec (.img 0 9 0 0) canvas8),
        faultOf (exec (.pwr 1 true) ready2)] =
      [some ⟨.badIndex, 0, []⟩, some ⟨.notInitialized, 0, []⟩, some ⟨.chainUnknown, 0, []⟩,
        some ⟨.badImage, 0, []⟩, some ⟨.chainUnknown, 0, []⟩] := by decide
theorem test_witness_StatusesComeOnlyFromTheirCommands :
    ∃ t u, exec (.setpx 0 0 8 0) canvas8 = .next t ∧
      t.results = canvas8.results ++ [⟨.outOfBounds, none⟩] ∧
      exec (.updd 1) absent2 = .next u ∧ u.results = absent2.results ++ [⟨.absent, none⟩] :=
  ⟨_, _, rfl, rfl, rfl, rfl⟩
theorem test_witness_CommandPointerAdvancesByLength :
    ∃ t u, step (withStream [0x22000000, 0]) = .next t ∧ t.fault = none ∧
      step (withStream [0x08000000]) = .next u ∧ u.fault ≠ none :=
  ⟨_, _, rfl, rfl, rfl, by decide⟩
theorem test_witness_ParametersAreNeverWritten :
    runs (step (withStream [0x20001234])) = true := by decide
theorem test_witness_TraceAndResultsOnlyGrow :
    runs (step (withStream [0x04000000])) = true := by decide
theorem test_witness_OnlyWalkCommandsMoveTheChain :
    walkCommand (.init 0) = false ∧ runs (exec (.init 0) selected1) = true := by decide
theorem test_witness_DriverRecordsChangeOnlyByTheirCommands :
    (selected1.driver 0).isSome = true ∧ runs (exec (.init 0) selected1) = true ∧
      selected1.driver 1 = none := by decide

/-- A command word at the pointer of a state that meets the invariant, its display Ready. -/
theorem test_witness_EveryStepKeepsTheInvariant :
    { ready1 .st7735 false with stream := [0x11000000] }.Inv ∧
      runs (step { ready1 .st7735 false with stream := [0x11000000] }) = true := by
  refine ⟨⟨?_, ?_, ?_, ?_⟩, by decide⟩
  · exact ⟨by decide, by decide, by decide, .inl (by decide)⟩
  · intro k q h
    match k, h with
    | 0, h =>
      cases h
      exact ⟨.inr ⟨by decide, by decide, by decide⟩, by decide, by decide⟩
    | k + 1, h => cases h
  · decide
  · intro r h
    cases h
theorem test_witness_ResetSatisfiesTheInvariant :
    ∀ (k : Nat) (p : Panel),
      ([some (panelOf .st7735 4 3 .r0 .none), none] : List (Option Panel))[k]? = some (some p) →
      Memory.wf [(11, 0x1234)] ∧ Memory.within [(11, 0x1234)] (p.pixWidth * p.pixHeight) := by
  intro k p h
  match k, h with
  | 0, h =>
    cases h
    exact ⟨by decide, by decide⟩
  | 1, h => cases h
  | k + 2, h => cases h
theorem test_witness_ResetValues :
    testCfg.halInitOk = true ∧ { testCfg with halInitOk := false }.halInitOk = false := by decide
theorem test_witness_CodecLawsHold :
    (0xF8 : Byte) &&& 0x07 = 0 ∧ (0xFC : Byte) &&& 0x03 = 0 ∧
      makeRGB 0xF8 0xFC 0xF8 = 0xFFFF := by decide

end Sys2Proof.Tests
end

section
/-! PROOF. The command pointer and the parameters of a step (10_state R21, R27, R42). Every command ends
in one of two ways: it takes a fault, or it runs a body and returns. `BodyFrame` says what a body leaves
as it was, and `exec_ends` that every command ends so. -/

namespace Sys2Proof.Machine

/-! ### What the body of a command leaves unchanged -/

/-- What the body of a command, its return not counted, leaves as it was: the parameters, `cp`, the
results, the fault record and the trace so far. -/
structure BodyFrame (s t : State) : Prop where
  params : SameParams s t
  cp : t.cp = s.cp
  results : t.results = s.results
  fault : t.fault = s.fault
  trace : s.trace <+: t.trace

theorem SameParams.refl (s : State) : SameParams s s := ⟨rfl, rfl, rfl, fun _ => rfl⟩

theorem SameParams.trans {s t u : State} (h : SameParams s t) (h' : SameParams t u) :
    SameParams s u := by
  obtain ⟨hcfg, hstream, hslots, hpanel⟩ := h
  obtain ⟨hcfg', hstream', hslots', hpanel'⟩ := h'
  exact ⟨hcfg'.trans hcfg, hstream'.trans hstream, hslots'.trans hslots,
    fun k => (hpanel' k).trans (hpanel k)⟩

namespace BodyFrame

theorem refl (s : State) : BodyFrame s s := ⟨.refl s, rfl, rfl, rfl, [], List.append_nil _⟩

theorem trans {s t u : State} (h : BodyFrame s t) (h' : BodyFrame t u) : BodyFrame s u :=
  ⟨h.params.trans h'.params, h'.cp.trans h.cp, h'.results.trans h.results, h'.fault.trans h.fault,
    h.trace.trans h'.trace⟩

theorem foldl {α : Type} {f : State → α → State} (hf : ∀ s a, BodyFrame s (f s a)) (l : List α)
    (s : State) : BodyFrame s (l.foldl f s) := by
  induction l generalizing s with
  | nil => exact refl s
  | cons a l ih => exact (hf s a).trans (ih (f s a))

theorem emit (s : State) (evs : List Event) : BodyFrame s (s.emit evs) :=
  ⟨.refl s, rfl, rfl, rfl, evs, rfl⟩

/-- A change of one display that keeps its panel record. -/
theorem updDisplay (s : State) (k : Nat) {f : Display → Display} (hf : ∀ q, (f q).panel = q.panel) :
    BodyFrame s (s.updDisplay k f) :=
  ⟨⟨rfl, rfl, State.updDisplay_numSlots s k f, State.updDisplay_panel s k f hf⟩,
    rfl, rfl, rfl, [], List.append_nil _⟩

theorem setFb (s : State) (k : Nat) (m : Memory) : BodyFrame s (s.setFb k m) :=
  updDisplay s k fun _ => rfl

theorem setDriver (s : State) (k : Nat) (d : Driver) : BodyFrame s (s.setDriver k d) :=
  updDisplay s k fun _ => rfl

theorem setLifecycle (s : State) (k : Nat) (l : Lifecycle) : BodyFrame s (s.setLifecycle k l) :=
  updDisplay s k fun _ => rfl

theorem setOn (s : State) (k : Nat) (on : Bool) : BodyFrame s (s.setOn k on) :=
  updDisplay s k fun _ => rfl

theorem setInverted (s : State) (k : Nat) (on : Bool) : BodyFrame s (s.setInverted k on) :=
  updDisplay s k fun _ => rfl

theorem walk (t : List Bool) (s : State) : BodyFrame s (walk t s) := emit s _

theorem walkTo (i : Nat) (s : State) : BodyFrame s (walkTo i s) := walk _ s

theorem initBody (d : Nat) (q : Display) (s : State) : BodyFrame s (initBody d q s) :=
  ((setLifecycle s d _).trans (emit _ _)).trans (setDriver _ d _)

theorem powerOnIfOff (d : Nat) (q : Display) (s : State) : BodyFrame s (powerOnIfOff d q s) := by
  unfold Machine.powerOnIfOff
  split
  · exact (emit s _).trans (setOn _ d true)
  · exact refl s

theorem updBody (d : Nat) (q : Display) (s : State) : BodyFrame s (updBody d q s) :=
  ((powerOnIfOff d q s).trans (emit _ _)).trans (emit _ _)

theorem initAt (s : State) (i : Nat) : BodyFrame s (initAt s i) := by
  unfold Machine.initAt
  split
  · exact walkTo i s
  · exact (walkTo i s).trans (initBody i _ _)

theorem updateAt (s : State) (i : Nat) : BodyFrame s (updateAt s i) := by
  unfold Machine.updateAt
  split
  · exact walkTo i s
  · exact (walkTo i s).trans (updBody i _ _)

theorem flipAt (s : State) (i : Nat) : BodyFrame s (flipAt s i) := by
  unfold Machine.flipAt
  split
  · exact walkTo i s
  · exact ((walkTo i s).trans (updBody i _ _)).trans (setFb _ i _)

end BodyFrame

/-! ### How a command ends -/

/-- The two ends of a command of `len` words run in `s` (60_exceptions R230): a fault taken with no
other effect, or a body and a return. -/
inductive EndsCommand (len : Nat) (s : State) : Outcome → Prop
  | fault (code : FaultCode) : EndsCommand len s (.next (s.faulted code len))
  | done {u : State} (st : Status) (v : Option Value) (h : BodyFrame s u) :
      EndsCommand len s (.next (u.finish len st v))

namespace EndsCommand

/-- A return with no body. -/
theorem of_complete (len : Nat) (st : Status) (v : Option Value) (s : State) :
    EndsCommand len s (complete len st v s) :=
  .done st v (.refl s)

theorem withDisplay {d len : Nat} {s : State} {go : Display → Outcome}
    (h : ∀ q, EndsCommand len s (go q)) : EndsCommand len s (withDisplay d len s go) := by
  unfold Machine.withDisplay
  split
  · exact .fault .badIndex
  · exact of_complete len .absent none s
  · exact h _

theorem whenReady {q : Display} {s : State} {go : Outcome} (h : EndsCommand 1 s go) :
    EndsCommand 1 s (whenReady q s go) := by
  unfold Machine.whenReady
  split
  · split
    · exact h
    · exact .fault .chainUnknown
  · exact .fault .notInitialized

/-! The bus commands -/

theorem execSeld (i : Nat) (s : State) : EndsCommand 1 s (execSeld i s) := by
  unfold Machine.execSeld
  split
  · exact .done .ok none (.walkTo i s)
  · exact .fault .badIndex

theorem execSelm (mask : Word) (s : State) : EndsCommand 2 s (execSelm mask s) := by
  unfold Machine.execSelm
  split
  · exact .fault .badIndex
  · exact .done .ok none (.walk _ s)

theorem execSela (s : State) : EndsCommand 1 s (execSela s) := .done .ok none (.walk _ s)

theorem execInitall (s : State) : EndsCommand 1 s (execInitall s) :=
  .done .ok none ((BodyFrame.emit s _).trans (.foldl .initAt _ _))

theorem execUpdall (s : State) : EndsCommand 1 s (execUpdall s) := by
  unfold Machine.execUpdall
  split
  · exact .fault .notInitialized
  · exact .done .ok none (.foldl .updateAt _ s)

theorem execUpdd (i : Nat) (s : State) : EndsCommand 1 s (execUpdd i s) := by
  unfold Machine.execUpdd
  split
  · split
    · exact .fault .notInitialized
    · split
      · exact .done .absent none (.walkTo i s)
      · exact .done .ok none (.flipAt s i)
  · exact .fault .badIndex

theorem execUpdm (mask : Word) (s : State) : EndsCommand 2 s (execUpdm mask s) := by
  unfold Machine.execUpdm
  split
  · exact .fault .badIndex
  · split
    · exact .fault .notInitialized
    · exact .done .ok none (.foldl .flipAt _ s)

/-! The panel driver commands -/

theorem execInit (d : Nat) (s : State) : EndsCommand 1 s (execInit d s) :=
  withDisplay fun q => by
    split
    · exact .done .ok none (.initBody d q s)
    · exact .fault .chainUnknown

theorem execUpd (d : Nat) (s : State) : EndsCommand 1 s (execUpd d s) :=
  withDisplay fun q => whenReady (.done .ok none (.updBody d q s))

theorem execPwr (d : Nat) (on : Bool) (s : State) : EndsCommand 1 s (execPwr d on s) :=
  withDisplay fun _ => whenReady (.done .ok none ((BodyFrame.emit s _).trans (.setOn _ d on)))

theorem execInv (d : Nat) (on : Bool) (s : State) : EndsCommand 1 s (execInv d on s) :=
  withDisplay fun _ => whenReady (.done .ok none ((BodyFrame.emit s _).trans (.setInverted _ d on)))

/-! The canvas and transform commands -/

theorem execClr (d : Nat) (c : Color) (s : State) : EndsCommand 1 s (execClr d c s) :=
  withDisplay fun _ => .done .ok none (.setFb s d _)

theorem execSetpx (d : Nat) (c : Color) (x y : Int) (s : State) :
    EndsCommand 2 s (execSetpx d c x y s) :=
  withDisplay fun _ => by
    split
    · exact of_complete 2 .outOfBounds none s
    · exact .done .ok none (.setFb s d _)

theorem execGetpx (d : Nat) (x y : Int) (s : State) : EndsCommand 2 s (execGetpx d x y s) :=
  withDisplay fun _ => by split <;> exact of_complete 2 _ _ s

theorem execRect (d : Nat) (c : Color) (x1 y1 x2 y2 : Int) (s : State) :
    EndsCommand 3 s (execRect d c x1 y1 x2 y2 s) :=
  withDisplay fun _ => .done .ok none (.setFb s d _)

theorem execImg (d : Nat) (id : BitVec 16) (x y : Int) (s : State) :
    EndsCommand 2 s (execImg d id x y s) :=
  withDisplay fun _ => by
    split
    · exact .fault .badImage
    · exact .done .ok none (.setFb s d _)

theorem execGlyph (d : Nat) (cov th : Byte) (x y : Int) (s : State) :
    EndsCommand 2 s (execGlyph d cov th x y s) :=
  withDisplay fun _ => by
    split
    · exact of_complete 2 .outOfBounds none s
    · exact .done .ok none (.setFb s d _)

theorem execTonat (d : Nat) (x y : Int) (s : State) : EndsCommand 2 s (execTonat d x y s) :=
  withDisplay fun _ => by split <;> exact of_complete 2 _ _ s

end EndsCommand

/-- Every command ends by a fault with its own length of words, or by a body and a return of its
length. -/
theorem exec_ends (i : Instr) (s : State) : EndsCommand i.len s (exec i s) := by
  cases i with
  | seld k => exact .execSeld k s
  | selm mask => exact .execSelm mask s
  | sela => exact .execSela s
  | initall => exact .execInitall s
  | updall => exact .execUpdall s
  | updd k => exact .execUpdd k s
  | updm mask => exact .execUpdm mask s
  | init d => exact .execInit d s
  | upd d => exact .execUpd d s
  | pwr d on => exact .execPwr d on s
  | inv d on => exact .execInv d on s
  | clr d c => exact .execClr d c s
  | setpx d c x y => exact .execSetpx d c x y s
  | getpx d x y => exact .execGetpx d x y s
  | rect d c x1 y1 x2 y2 => exact .execRect d c x1 y1 x2 y2 s
  | img d id x y => exact .execImg d id x y s
  | glyph d cov th x y => exact .execGlyph d cov th x y s
  | tonat d x y => exact .execTonat d x y s
  | mkrgb r g b => exact .of_complete 1 _ _ s
  | getr c => exact .of_complete 1 _ _ s
  | getg c => exact .of_complete 1 _ _ s
  | getb c => exact .of_complete 1 _ _ s

/-- A command that goes on has taken a fault, or has run a body and returned. -/
theorem exec_next_cases {i : Instr} {s t : State} (h : exec i s = .next t) :
    (∃ code, t = s.faulted code i.len) ∨
      ∃ u st v, BodyFrame s u ∧ t = u.finish i.len st v := by
  have hend := exec_ends i s
  rw [h] at hend
  cases hend with
  | fault code => exact .inl ⟨code, rfl⟩
  | done st v hu => exact .inr ⟨_, st, v, hu, rfl⟩

/-- A step that goes on has taken a fault, or has run the body of the command at `cp` and returned. -/
theorem step_next_cases {s t : State} (h : step s = .next t) :
    s.fault = none ∧
      ((∃ code len, t = s.faulted code len) ∨
        ∃ i u st v, decode (s.stream.drop s.cp) = .instr i ∧ BodyFrame s u ∧
          t = u.finish i.len st v) := by
  obtain ⟨hs, ⟨-, rfl⟩ | ⟨len, -, rfl⟩ | ⟨i, hi, hexec⟩⟩ := step_cases h
  · exact ⟨hs, .inl ⟨_, _, rfl⟩⟩
  · exact ⟨hs, .inl ⟨_, _, rfl⟩⟩
  · obtain ⟨code, rfl⟩ | ⟨u, st, v, hu, rfl⟩ := exec_next_cases hexec
    · exact ⟨hs, .inl ⟨_, _, rfl⟩⟩
    · exact ⟨hs, .inr ⟨i, u, st, v, hi, hu, rfl⟩⟩

/-- A command decoded at `cp` has at least one word, and all its words lie in the stream. -/
theorem decoded_in_stream {s : State} {i : Instr} (h : decode (s.stream.drop s.cp) = .instr i) :
    s.cp < s.cp + i.len ∧ s.cp + i.len ≤ s.stream.length := by
  have hpos : 1 ≤ i.len := i.opcode.len_pos
  have hfits : i.len ≤ s.stream.length - s.cp := by simpa using decode_instr_len h
  omega

/-! ### The obligations -/

/-- Settles O53: a fault leaves `cp`, and a return adds the length of the decoded command to the `cp`
its body left as it was. -/
theorem commandPointerAdvancesByLength : Obligations.CommandPointerAdvancesByLength := by
  refine ⟨fun _ _ _ _ => rfl, fun s t h => ?_⟩
  obtain ⟨hs, ⟨code, len, rfl⟩ | ⟨i, u, st, v, hi, hu, rfl⟩⟩ := step_next_cases h
  · exact ⟨fun hnone => by simp [State.faulted] at hnone, fun _ => rfl⟩
  · have hcp : (u.finish i.len st v).cp = s.cp + i.len := by rw [State.finish_cp, hu.cp]
    have hfault : (u.finish i.len st v).fault = none := hu.fault.trans hs
    refine ⟨fun _ => ⟨i, hi, hcp, ?_⟩, fun hne => absurd hfault hne⟩
    rw [hcp]
    exact decoded_in_stream hi

/-- Settles O54: fault entry sets the fault record alone, a body keeps the parameters, and a return
writes `results` and `cp` alone. -/
theorem parametersAreNeverWritten : Obligations.ParametersAreNeverWritten := by
  intro s t h
  obtain ⟨-, ⟨code, len, rfl⟩ | ⟨i, u, st, v, -, hu, rfl⟩⟩ := step_next_cases h
  · exact .refl s
  · exact hu.params

end Sys2Proof.Machine
end

section
/-! PROOF. IMG of an id without an image (20_memory R56). -/

namespace Sys2Proof.Machine

/-- On a present display the only effect of IMG of an id without an image is fault entry. -/
theorem execImg_no_image {s : State} {d : Nat} {q : Display} {id : BitVec 16} (x y : Int)
    (hd : s.display d = some q) (hid : s.cfg.image id = none) :
    execImg d id x y s = .next (s.faulted .badImage 2) := by
  unfold execImg
  rw [withDisplay_present hd, hid, raiseFault_eq]

/-- Settles O21: the slot check passes, the lookup of the image fails, and fault entry sets the fault
record alone. -/
theorem missingImageIsBadImage : Obligations.MissingImageIsBadImage :=
  fun _ _ _ _ x y hd hid => execImg_no_image x y hd hid

end Sys2Proof.Machine
end

section
/-! PROOF. The bit stream of a walk (30_encoding R90): the events `walk` emits are the sequence of the
rule, which is counted once for every length and every bit function. -/

namespace Sys2Proof.Machine

/-- A walk to a vector given by its bits emits R90's sequence of those bits. -/
theorem walkEvents_map_range (l : Nat) (bit : Nat → Bool) :
    walkEvents ((List.range l).map bit) = walkTrace l bit := by
  unfold walkEvents walkTrace
  rw [← List.map_reverse, List.flatMap_map]
  rfl

theorem walkEvents_eq_walkTrace (t : List Bool) :
    walkEvents t = walkTrace t.length fun j => t.getD j true := by
  have hbits : (List.range t.length).map (fun j => t.getD j true) = t :=
    List.ext_getElem (by simp) fun j _ hj => by simp [hj]
  rw [← walkEvents_map_range, hbits]

theorem walkTrace_length (l : Nat) (bit : Nat → Bool) : (walkTrace l bit).length = 3 * l + 3 := by
  simp [walkTrace, List.length_flatMap]
  omega

/-- The rising CLOCK edges: one for each position and one for the latch. -/
theorem walkTrace_rises (l : Nat) (bit : Nat → Bool) :
    ((walkTrace l bit).filter fun e => e = .pin .clock true).length = l + 1 := by
  simp [walkTrace, List.filter_flatMap, List.length_flatMap]

/-- Settles O41: the target vector is the list of its own bits, so its walk is R90's sequence. -/
theorem walkEmitsTheBitStream : Obligations.WalkEmitsTheBitStream := by
  intro s t
  refine ⟨?_, walkTrace_length _ _, walkTrace_rises _ _⟩
  rw [walk_trace, walkEvents_eq_walkTrace]

end Sys2Proof.Machine
end

section
/-! PROOF. The pixel data of UPD (30_encoding R89, 20_memory R51). Every Color makes two data events, so
cell `idx` stands at the places `2 * idx` and `2 * idx + 1` of the pixel events, and these are the last
events UPD emits. -/

namespace Sys2Proof.Machine

/-! ### The pixel events -/

@[simp] theorem wireBytes_length (o : ByteOrder) (c : Color) : (wireBytes o c).length = 2 := by
  cases o <;> rfl

theorem pixelEvents_cons (o : ByteOrder) (c : Color) (cells : List Color) (sel : List Nat) :
    pixelEvents o (c :: cells) sel =
      (wireBytes o c).map (Event.data · sel) ++ pixelEvents o cells sel := by
  simp [pixelEvents]

@[simp] theorem pixelEvents_length (o : ByteOrder) (cells : List Color) (sel : List Nat) :
    (pixelEvents o cells sel).length = 2 * cells.length := by
  simp [pixelEvents, List.length_flatMap, Nat.mul_comm]

/-- Byte `k` of the Color of cell `idx` is pixel event `2 * idx + k`. -/
theorem pixelEvents_getElem? (o : ByteOrder) (sel : List Nat) {cells : List Color} {idx k : Nat}
    {c : Color} (hc : cells[idx]? = some c) (hk : k < 2) :
    (pixelEvents o cells sel)[2 * idx + k]? = (wireBytes o c)[k]?.map (Event.data · sel) := by
  induction cells generalizing idx with
  | nil => simp at hc
  | cons c' cells ih =>
    rw [pixelEvents_cons]
    cases idx with
    | zero =>
      obtain rfl : c' = c := by simpa using hc
      rw [List.getElem?_append_left (by simpa using hk), List.getElem?_map]
      simp
    | succ idx =>
      have hplace : 2 * (idx + 1) + k - 2 = 2 * idx + k := by omega
      rw [List.getElem?_append_right (by simp; omega), List.length_map, wireBytes_length, hplace]
      exact ih (by simpa using hc)

theorem Memory.cells_getElem? (m : Memory) {n idx : Nat} (h : idx < n) :
    (m.cells n)[idx]? = some (m.read idx) := by
  simp [Memory.cells, h]

/-! ### What UPD does on a Ready display -/

/-- `Sel(S)` is defined and is `sel` (10_state R33). -/
theorem State.sel_eq_some {s : State} {sel : List Nat} :
    s.sel = some sel ↔ s.chain.known = true ∧ s.chain.selected = sel := by
  simp [State.sel]

theorem execUpd_ready {s : State} {d : Nat} {q : Display} (hd : s.display d = some q)
    (hr : q.driver.lifecycle = .ready) (hk : s.chain.known = true) :
    execUpd d s = .next ((updBody d q s).finish 1 .ok none) := by
  unfold execUpd whenReady
  rw [withDisplay_present hd, if_pos (by simpa [Display.isReady] using hr), if_pos hk, complete_eq]

theorem updBody_trace (d : Nat) (q : Display) (s : State) :
    (updBody d q s).trace = s.trace ++ updEvents s.cfg q s.chain.selected := by
  rw [updBody_eq]

/-- The last `2 * pixWidth * pixHeight` events of a UPD that returns are its pixel events. -/
theorem execUpd_last_events {s t : State} {d : Nat} {q : Display} {sel : List Nat}
    (hd : s.display d = some q) (hr : q.driver.lifecycle = .ready) (hsel : s.sel = some sel)
    (h : execUpd d s = .next t) :
    t.trace.drop (t.trace.length - 2 * cellCount q.panel) =
      pixelEvents s.cfg.wireByteOrder (q.fb.cells (cellCount q.panel)) sel := by
  obtain ⟨hk, rfl⟩ := State.sel_eq_some.mp hsel
  rw [execUpd_ready hd hr hk] at h
  cases h
  rw [State.finish_trace, updBody_trace, updEvents, ← List.append_assoc]
  exact List.drop_left' (by simp; omega)

/-- Settles O35: the last events are the pixel events, and cell `idx` stands there as its wire bytes. -/
theorem pixelsGoOutAsWireBytesInIndexOrder : Obligations.PixelsGoOutAsWireBytesInIndexOrder := by
  intro s t d q sel idx hd hr hsel h hidx pixels high low
  have hpixels : pixels = pixelEvents s.cfg.wireByteOrder (q.fb.cells (cellCount q.panel)) sel :=
    execUpd_last_events hd hr hsel h
  have hbyte {k : Nat} (hk : k < 2) : pixels[2 * idx + k]? =
      (wireBytes s.cfg.wireByteOrder (q.fb.read idx))[k]?.map (Event.data · sel) := by
    rw [hpixels]
    exact pixelEvents_getElem? _ _ (Memory.cells_getElem? _ hidx) hk
  have hfirst := hbyte (k := 0) (by decide)
  have hsecond := hbyte (k := 1) (by decide)
  refine ⟨fun ho => ?_, fun ho => ?_⟩ <;>
  · rw [ho] at hfirst hsecond
    exact ⟨hfirst, hsecond⟩

end Sys2Proof.Machine
end

section
/-! PROOF. The native check of the checked transform (41_transform R120-R122): the rotation takes the
logical grid into the native grid and the mirror keeps the native grid, so `nativeIndex` rejects outside
the logical grid alone. -/

namespace Sys2Proof.Machine

/-- The quarter turns exchange the two dimensions, as the logical grid does (00_scope R10). -/
theorem rot_inNative {p : Panel} {x y : Int} (h : inLogical p x y) :
    inNative p (rot p.rotation p.pixWidth p.pixHeight x y).1
      (rot p.rotation p.pixWidth p.pixHeight x y).2 := by
  unfold inLogical logicalWidth logicalHeight at h
  unfold rot
  cases hr : p.rotation <;> simp only [hr] at h ⊢ <;> omega

theorem mir_inNative {p : Panel} (m : Mirror) {X Y : Int} (h : inNative p X Y) :
    inNative p (mir m p.pixWidth p.pixHeight X Y).1 (mir m p.pixWidth p.pixHeight X Y).2 := by
  cases m <;> simp only [mir] <;> omega

/-- A logical pixel's native coordinate passes the native check. -/
theorem nativeOf_inNative {p : Panel} {x y : Int} (h : inLogical p x y) :
    inNative p (nativeOf p x y).1 (nativeOf p x y).2 :=
  mir_inNative p.mirror (rot_inNative h)

theorem nativeIndex_of_inside {p : Panel} {x y : Int} (h : inLogical p x y) :
    nativeIndex p x y = some ((nativeOf p x y).2 * p.pixWidth + (nativeOf p x y).1).toNat :=
  nativeIndex_eq_some.mpr ⟨h, nativeOf_inNative h, rfl⟩

/-- Settles O14: the tables are the definitions of `rot`, `mir` and `toNative`; inside the logical grid
the native check passes, and outside it the logical check rejects. -/
theorem nativeIndexAcceptsExactlyTheLogicalGrid :
    Obligations.NativeIndexAcceptsExactlyTheLogicalGrid := by
  refine ⟨fun _ _ _ _ => ⟨rfl, rfl, rfl, rfl, rfl, rfl, rfl, rfl, fun _ _ => rfl⟩, fun p x y => ?_⟩
  split
  · next h => exact nativeIndex_of_inside h
  · next h => exact nativeIndex_of_outside h

end Sys2Proof.Machine
end

section
/-! PROOF. What every command with a display operand does before it looks at the display: BAD_INDEX at or
above `N` (60_exceptions R235) and ABSENT on an absent slot (R249). -/

namespace Sys2Proof.Machine

/-- Every format-D command is the shared preamble of its operand, with its own length. -/
theorem exec_formatD {i : Instr} {d : Nat} (h : formatDOperand i = some d) (s : State) :
    ∃ go, exec i s = withDisplay d i.len s go := by
  cases i with
  | init | upd | pwr | inv | clr | setpx | getpx | rect | img | glyph | tonat =>
    cases h
    exact ⟨_, rfl⟩
  | seld | selm | sela | initall | updall | updd | updm | mkrgb | getr | getg | getb => cases h

theorem exec_formatD_badIndex {i : Instr} {d : Nat} {s : State} (h : formatDOperand i = some d)
    (hd : s.numSlots ≤ d) : exec i s = .next (s.faulted .badIndex i.len) := by
  obtain ⟨go, hgo⟩ := exec_formatD h s
  rw [hgo, withDisplay_badIndex hd]

theorem exec_formatD_absent {i : Instr} {d : Nat} {s : State} (h : formatDOperand i = some d)
    (hd : d < s.numSlots) (hnone : s.display d = none) :
    exec i s = .next (s.finish i.len .absent none) := by
  obtain ⟨go, hgo⟩ := exec_formatD h s
  rw [hgo, withDisplay_absent hd hnone]

end Sys2Proof.Machine
end

section
/-! PROOF. BAD_INDEX (60_exceptions R235). -/

namespace Sys2Proof.Machine

/-- The check on a mask word fails exactly where every bit at or above `n` is 0. -/
theorem maskBeyond_eq_false {mask : Word} {n : Nat} :
    maskBeyond mask n = false ↔ ∀ j, n ≤ j → mask.getLsbD j = false := by
  have hzero : maskBeyond mask n = false ↔ mask >>> n = 0#32 := by simp [maskBeyond]
  rw [hzero]
  constructor
  · intro h j hj
    have hbit : (mask >>> n).getLsbD (j - n) = false := by simp [h]
    rwa [BitVec.getLsbD_ushiftRight, Nat.add_sub_cancel' hj] at hbit
  · intro h
    apply BitVec.eq_of_getLsbD_eq
    intro j _
    rw [BitVec.getLsbD_ushiftRight, h _ (Nat.le_add_right n j), BitVec.getLsbD_zero]

theorem maskBeyond_of_bit {mask : Word} {n j : Nat} (hj : n ≤ j) (hbit : mask.getLsbD j = true) :
    maskBeyond mask n = true := by
  by_contra h
  have hclear := maskBeyond_eq_false.mp (Bool.eq_false_of_not_eq_true h) j hj
  simp [hclear] at hbit

theorem execSeld_badIndex {k : Nat} {s : State} (h : s.numSlots ≤ k) :
    execSeld k s = .next (s.faulted .badIndex 1) := by
  rw [execSeld, if_neg (Nat.not_lt.mpr h), raiseFault_eq]

theorem execUpdd_badIndex {k : Nat} {s : State} (h : s.numSlots ≤ k) :
    execUpdd k s = .next (s.faulted .badIndex 1) := by
  rw [execUpdd, if_neg (Nat.not_lt.mpr h), raiseFault_eq]

theorem execSelm_badIndex {mask : Word} {s : State} (h : maskBeyond mask s.numSlots = true) :
    execSelm mask s = .next (s.faulted .badIndex 2) := by
  rw [execSelm, if_pos h, raiseFault_eq]

theorem execUpdm_badIndex {mask : Word} {s : State} (h : maskBeyond mask s.numSlots = true) :
    execUpdm mask s = .next (s.faulted .badIndex 2) := by
  rw [execUpdm, if_pos h, raiseFault_eq]

/-- Settles O17: a format-D command fails in its shared preamble, SELD and UPDD in their comparison with
`N`, SELM and UPDM in the check on their mask. -/
theorem indexBeyondSlotsIsBadIndex : Obligations.IndexBeyondSlotsIsBadIndex := by
  refine fun s => ⟨fun i d h hd => exec_formatD_badIndex h hd,
    fun k hk => ⟨execSeld_badIndex hk, execUpdd_badIndex hk⟩, fun mask j hj hbit => ?_⟩
  have hbeyond : maskBeyond mask s.numSlots = true := maskBeyond_of_bit hj hbit
  exact ⟨execSelm_badIndex hbeyond, execUpdm_badIndex hbeyond⟩

end Sys2Proof.Machine
end

section
/-! PROOF. NOT_INITIALIZED (60_exceptions R248): the readiness check of one display, which UPD, PWR and
INV make in their preamble and the bus updates make of every present target. -/

namespace Sys2Proof.Machine

theorem Display.isReady_eq_false {q : Display} :
    q.isReady = false ↔ q.driver.lifecycle ≠ .ready := by
  simp [Display.isReady]

theorem whenReady_notReady {q : Display} {s : State} {go : Outcome}
    (h : q.driver.lifecycle ≠ .ready) :
    whenReady q s go = .next (s.faulted .notInitialized 1) := by
  simp [whenReady, Display.isReady_eq_false.mpr h, raiseFault_eq]

theorem State.notReadyAt_of_display {s : State} {d : Nat} {q : Display} (hd : s.display d = some q)
    (h : q.driver.lifecycle ≠ .ready) : s.notReadyAt d = true := by
  simp [State.notReadyAt, hd, Display.isReady_eq_false.mpr h]

theorem mem_maskedSlots {mask : Word} {n d : Nat} :
    d ∈ maskedSlots mask n ↔ d < n ∧ mask.getLsbD d = true := by
  simp [maskedSlots, maskBit]

theorem execUpdall_notReady {s : State} {d : Nat} (hd : d < s.numSlots)
    (h : s.notReadyAt d = true) : execUpdall s = .next (s.faulted .notInitialized 1) := by
  have hany : (List.range s.numSlots).any s.notReadyAt = true :=
    List.any_eq_true.mpr ⟨d, List.mem_range.mpr hd, h⟩
  rw [execUpdall, if_pos hany, raiseFault_eq]

theorem execUpdd_notReady {s : State} {d : Nat} (hd : d < s.numSlots)
    (h : s.notReadyAt d = true) : execUpdd d s = .next (s.faulted .notInitialized 1) := by
  rw [execUpdd, if_pos hd, if_pos h, raiseFault_eq]

theorem execUpdm_notReady {s : State} {d : Nat} {mask : Word}
    (hmask : maskBeyond mask s.numSlots = false) (hd : d ∈ maskedSlots mask s.numSlots)
    (h : s.notReadyAt d = true) : execUpdm mask s = .next (s.faulted .notInitialized 2) := by
  have hany : (maskedSlots mask s.numSlots).any s.notReadyAt = true :=
    List.any_eq_true.mpr ⟨d, hd, h⟩
  rw [execUpdm, if_neg (by simp [hmask]), if_pos hany, raiseFault_eq]

/-- Settles O19: the display is present, so every index check passes and the readiness check fails
before any effect. -/
theorem driverCommandBeforeInitIsNotInitialized :
    Obligations.DriverCommandBeforeInitIsNotInitialized := by
  intro s d q hd hready
  have hlt : d < s.numSlots := State.lt_of_display hd
  have hnot : s.notReadyAt d = true := State.notReadyAt_of_display hd hready
  have hdriver (go : Display → Outcome) :
      withDisplay d 1 s (fun q => whenReady q s (go q)) = .next (s.faulted .notInitialized 1) := by
    rw [withDisplay_present hd, whenReady_notReady hready]
  refine ⟨fun on => ⟨hdriver _, hdriver _, hdriver _⟩, execUpdall_notReady hlt hnot,
    execUpdd_notReady hlt hnot, fun mask hbit hbeyond => ?_⟩
  exact execUpdm_notReady (maskBeyond_eq_false.mpr hbeyond) (mem_maskedSlots.mpr ⟨hlt, hbit⟩) hnot

end Sys2Proof.Machine
end

section
/-! PROOF. The walk postcondition (44_bus_addressor R201). From a known low CLOCK each bit of the sequence
shifts the stages by one, so after a bit for every stage the stages hold the target, and the latch pulse
copies them to the outputs. -/

namespace Sys2Proof.Machine

/-! ### The chain through the events of a walk -/

/-- One bit of the sequence, from CLOCK low: DATA takes the bit and one rising edge shifts it in. -/
theorem Chain.foldl_apply_bit {c : Chain} (h : c.clock = .low) (b : Bool) :
    (Event.pin .data b :: clockPulse).foldl Chain.apply c =
      { sr := (Level.ofBool b :: c.sr).take c.sr.length
        out := c.sr
        clock := .low
        data := Level.ofBool b } := by
  simp [clockPulse, Chain.driveData, Chain.driveClock, Chain.rise, h, Level.ofBool]

/-- The bits `t`, sent last position first: the stages hold `t` before what they held, as far as they
reach, and DATA is left at the bit of position 0. -/
theorem Chain.foldl_apply_bits (t : List Bool) {c : Chain} (h : c.clock = .low) :
    let c' := (t.reverse.flatMap fun b => .pin .data b :: clockPulse).foldl Chain.apply c
    c'.clock = .low ∧ c'.sr = (t.map Level.ofBool ++ c.sr).take c.sr.length ∧
      c'.data = (t.map Level.ofBool).headD c.data := by
  induction t with
  | nil => simp [h]
  | cons b t ih =>
    obtain ⟨hclock, hsr, -⟩ := ih
    rw [List.reverse_cons, List.flatMap_append, List.flatMap_singleton, List.foldl_append,
      Chain.foldl_apply_bit hclock, hsr]
    refine ⟨rfl, ?_, rfl⟩
    cases hlen : c.sr.length <;> simp [hlen, List.take_take]

/-- The latch pulse, from CLOCK low: one rising edge, so the outputs take the stages. -/
theorem Chain.foldl_apply_clockPulse {c : Chain} (h : c.clock = .low) :
    clockPulse.foldl Chain.apply c =
      { sr := (c.data :: c.sr).take c.sr.length, out := c.sr, clock := .low, data := c.data } := by
  simp [clockPulse, Chain.driveClock, Chain.rise, h, Level.ofBool]

/-- The walk to a vector of as many positions as the chain has stages, from any levels (R201). -/
theorem walk_chain_of_length {s : State} {t0 : Bool} {ts : List Bool}
    (h : s.chain.sr.length = (t0 :: ts).length) :
    (walk (t0 :: ts) s).chain =
      { sr := (t0 :: (t0 :: ts).dropLast).map Level.ofBool
        out := (t0 :: ts).map Level.ofBool
        clock := .low
        data := Level.ofBool t0 } := by
  obtain ⟨hclock, hsr, hdata⟩ :=
    Chain.foldl_apply_bits (t0 :: ts) (Chain.driveClock_clock s.chain false)
  have hlen : (s.chain.driveClock false).sr.length = ((t0 :: ts).map Level.ofBool).length := by
    rw [List.length_map]; exact h
  rw [hlen, List.take_left] at hsr
  rw [walk_chain, walkEvents, List.append_assoc, List.singleton_append, List.foldl_cons,
    List.foldl_append, Chain.apply_clock, Chain.foldl_apply_clockPulse hclock, hsr, hdata]
  simp [List.dropLast_eq_take, List.map_take]

/-! ### The selection a walk leaves -/

theorem walk_out_of_length {s : State} {t : List Bool} (hne : t ≠ [])
    (h : s.chain.sr.length = t.length) :
    (walk t s).chain.out = t.map Level.ofBool ∧ (walk t s).chain.clock = .low := by
  obtain ⟨t0, ts, rfl⟩ := List.exists_cons_of_ne_nil hne
  rw [walk_chain_of_length h]
  exact ⟨rfl, rfl⟩

@[simp] theorem Level.ofBool_ne_unknown (b : Bool) : Level.ofBool b ≠ .unknown := by
  cases b <;> decide

@[simp] theorem Level.ofBool_eq_low {b : Bool} : Level.ofBool b = .low ↔ b = false := by
  cases b <;> decide

/-- Outputs that hold a vector are all known, and the positions of its 0s are selected. -/
theorem State.sel_of_out {s : State} {t : List Bool} (h : s.chain.out = t.map Level.ofBool) :
    s.sel = some ((List.range t.length).filter fun j => t[j]? = some false) := by
  have hknown : s.chain.known = true := by simp [Chain.known, h]
  have hselected : s.chain.selected =
      (List.range t.length).filter fun j => t[j]? = some false := by
    simp [Chain.selected, h]
  exact State.sel_eq_some.mpr ⟨hknown, hselected⟩

/-- The only 0 of `selVec l i` is at position `i`. -/
theorem selVec_zeros {l i : Nat} (h : i < l) :
    ((List.range l).filter fun j => (selVec l i)[j]? = some false) = [i] := by
  have hzero : ∀ j ∈ List.range l, decide ((selVec l i)[j]? = some false) = (j == i) := by
    intro j hj
    have hjl : j < l := List.mem_range.mp hj
    rw [Bool.eq_iff_iff]
    simp [selVec, hjl]
  rw [List.filter_congr hzero, List.filter_beq,
    List.count_eq_one_of_mem List.nodup_range (List.mem_range.mpr h), List.replicate_one]

/-- After the walk of SELD to a position of the chain that position alone is selected (R202). -/
theorem walkTo_selects {s : State} {i : Nat} (hi : i < s.numPositions)
    (h : s.chain.sr.length = s.numPositions) :
    (walkTo i s).sel = some [i] ∧ (walkTo i s).chain.clock = .low := by
  have hlen : (selVec s.numPositions i).length = s.numPositions := selVec_length _ _
  have hne : selVec s.numPositions i ≠ [] := by
    intro hnil
    simp [hnil] at hlen
    omega
  obtain ⟨hout, hclock⟩ := walk_out_of_length hne (h.trans hlen.symm)
  refine ⟨?_, hclock⟩
  rw [walkTo, State.sel_of_out hout, hlen, selVec_zeros hi]

end Sys2Proof.Machine
end

section
/-! PROOF. ABSENT (60_exceptions R249): the shared preamble of the format-D commands, and UPDD, whose walk
happens first. -/

namespace Sys2Proof.Machine

theorem State.notReadyAt_of_absent {s : State} {d : Nat} (h : s.display d = none) :
    s.notReadyAt d = false := by
  simp [State.notReadyAt, h]

theorem execUpdd_absent {s : State} {d : Nat} (hd : d < s.numSlots) (h : s.display d = none) :
    execUpdd d s = .next ((walkTo d s).finish 1 .absent none) := by
  rw [execUpdd, if_pos hd, if_neg (by simp [State.notReadyAt_of_absent h]), h]
  rfl

theorem walkEvents_selVec (l i : Nat) : walkEvents (selVec l i) = seldTrace l i :=
  walkEvents_map_range l _

/-- Settles O18: a format-D command returns in its preamble; UPDD returns from the state its walk leaves,
which the walk postcondition describes. -/
theorem absentSlotReturnsAbsent : Obligations.AbsentSlotReturnsAbsent := by
  intro s d hd hnone
  refine ⟨fun i h => exec_formatD_absent h hd hnone, _, execUpdd_absent hd hnone,
    ⟨rfl, rfl, rfl⟩, ?_, ?_, fun h => ?_, rfl, rfl, rfl⟩
  · exact congrArg (s.trace ++ ·) (walkEvents_selVec _ d)
  · exact congrArg (List.foldl Chain.apply s.chain) (walkEvents_selVec _ d)
  · exact walkTo_selects (Nat.lt_succ_of_lt hd) h

end Sys2Proof.Machine
end

section
/-! PROOF. The faults of the decoder (60_exceptions R246, R247). The decoder's opcode table, masks and
lengths say what the rules of 30_encoding R79 and R80 say, so a header is legal exactly where its opcode is
known and its masked bits are 0. -/

namespace Sys2Proof

/-! ### The masks as fields -/

/-- The mask of bits `[s+w-1:s]` of a word. -/
def fieldMask (s w : Nat) : Word := (BitVec.allOnes w).setWidth 32 <<< s

theorem fieldMask_getLsbD {s w : Nat} (hw : s + w ≤ 32) (j : Nat) :
    (fieldMask s w).getLsbD j = decide (s ≤ j ∧ j < s + w) := by
  rw [Bool.eq_iff_iff]
  simp [fieldMask]
  omega

/-- The bits under a field's mask are all 0 exactly where the field is 0. -/
theorem and_fieldMask_eq_zero (h : Word) {s w : Nat} (hw : s + w ≤ 32) :
    h &&& fieldMask s w = 0 ↔ h.extractLsb' s w = 0 := by
  constructor
  · intro hz
    apply BitVec.eq_of_getLsbD_eq
    intro j hj
    have hbit : (h &&& fieldMask s w).getLsbD (s + j) = false := by simp [hz]
    simpa [fieldMask_getLsbD hw, hj] using hbit
  · intro hz
    apply BitVec.eq_of_getLsbD_eq
    intro j _
    have hbit : (h.extractLsb' s w).getLsbD (j - s) = false := by simp [hz]
    rw [BitVec.getLsbD_and, fieldMask_getLsbD hw]
    by_cases hin : s ≤ j ∧ j < s + w
    · have hj : j - s < w := by omega
      simpa [hj, hin] using hbit
    · simp [hin]

theorem and_arg_eq_zero (h : Word) : h &&& 0x0000FFFF#32 = 0#32 ↔ h.extractLsb' 0 16 = 0#16 :=
  and_fieldMask_eq_zero h (s := 0) (w := 16) (by decide)

theorem and_argAboveBit0_eq_zero (h : Word) :
    h &&& 0x0000FFFE#32 = 0#32 ↔ h.extractLsb' 1 15 = 0#15 :=
  and_fieldMask_eq_zero h (s := 1) (w := 15) (by decide)

theorem and_mid_eq_zero (h : Word) : h &&& 0x00FF0000#32 = 0#32 ↔ h.extractLsb' 16 8 = 0#8 :=
  and_fieldMask_eq_zero h (s := 16) (w := 8) (by decide)

theorem and_midArg_eq_zero (h : Word) :
    h &&& 0x00FFFFFF#32 = 0#32 ↔ h.extractLsb' 0 16 = 0#16 ∧ h.extractLsb' 16 8 = 0#8 := by
  rw [show 0x00FFFFFF#32 = 0x0000FFFF#32 ||| 0x00FF0000#32 from rfl, BitVec.and_or_distrib_left,
    BitVec.or_eq_zero_iff, and_arg_eq_zero, and_mid_eq_zero]

/-! ### The header rules and the decoder's tables -/

/-- The decoder knows no opcode exactly where R80 reserves it: a check of the 256 opcode bytes. -/
theorem Opcode.ofByte_eq_none_iff (b : Byte) :
    Opcode.ofByte b = none ↔ Machine.ReservedOpcode b.toNat := by
  unfold Machine.ReservedOpcode
  revert b
  decide

/-- Under a known opcode a reserved field is set exactly where a masked bit is. -/
theorem reservedFieldSet_iff {h : Word} {op : Opcode} (ho : opField h = op.byte) :
    Machine.ReservedFieldSet h ↔ h &&& op.zeroMask ≠ 0 := by
  have hop : h.extractLsb' 24 8 = op.byte := ho
  unfold Machine.ReservedFieldSet
  rw [hop]
  cases op with
  | selm | sela | initall | updall | updm =>
    simp [Opcode.byte, Opcode.zeroMask, and_midArg_eq_zero, imp_iff_not_or]
  | seld | updd | init | upd | getpx | tonat => simp [Opcode.byte, Opcode.zeroMask, and_arg_eq_zero]
  | pwr | inv => simp [Opcode.byte, Opcode.zeroMask, and_argAboveBit0_eq_zero]
  | getr | getg | getb => simp [Opcode.byte, Opcode.zeroMask, and_mid_eq_zero]
  | clr | setpx | rect | img | glyph | mkrgb => simp [Opcode.byte, Opcode.zeroMask]

theorem tableLen_eq {h : Word} {op : Opcode} (ho : opField h = op.byte) :
    Machine.tableLen h = op.len := by
  have hop : h.extractLsb' 24 8 = op.byte := ho
  unfold Machine.tableLen
  rw [hop]
  cases op <;> rfl

/-- A legal header: its opcode is known and its masked bits are 0. -/
theorem not_illegalHeader_iff {h : Word} :
    ¬ Machine.IllegalHeader h ↔
      ∃ op, Opcode.ofByte (opField h) = some op ∧ h &&& op.zeroMask = 0 := by
  have hreserved : Machine.ReservedOpcode (h.extractLsb' 24 8).toNat ↔
      Opcode.ofByte (opField h) = none := (Opcode.ofByte_eq_none_iff _).symm
  unfold Machine.IllegalHeader
  rw [hreserved]
  cases ho : Opcode.ofByte (opField h) with
  | none => simp
  | some op => simp [reservedFieldSet_iff (Opcode.byte_of_ofByte ho).symm]

/-! ### What the decoder answers -/

theorem decode_of_illegal {h : Word} (rest : List Word) (hh : Machine.IllegalHeader h) :
    decode (h :: rest) = .illegal := by
  cases ho : Opcode.ofByte (opField h) with
  | none => simp [decode, ho]
  | some op =>
    have hz : h &&& op.zeroMask ≠ 0 :=
      fun hz => not_illegalHeader_iff.mpr ⟨op, ho, hz⟩ hh
    rw [decode_cons ho, if_pos hz]

theorem decode_of_truncated {h : Word} {rest : List Word} (hh : ¬ Machine.IllegalHeader h)
    (hlen : rest.length + 1 < Machine.tableLen h) :
    decode (h :: rest) = .truncated (Machine.tableLen h) := by
  obtain ⟨op, ho, hz⟩ := not_illegalHeader_iff.mp hh
  rw [tableLen_eq (Opcode.byte_of_ofByte ho).symm] at hlen ⊢
  rw [decode_cons ho, if_neg (not_not_intro hz), List.length_cons, if_pos hlen]

end Sys2Proof

namespace Sys2Proof.Machine

/-- Settles O6: the decoder rejects the header, and the words recorded are those of the stream at `cp`,
one for an illegal header and all that are left for a truncated command. -/
theorem stepTakesDecoderFaults : Obligations.StepTakesDecoderFaults := by
  intro s h rest hfault hstream
  refine ⟨fun hh => ?_, fun hh hlen => ?_⟩
  · have hfetch : fetch s = .illegal := by rw [fetch, hstream, decode_of_illegal rest hh]
    have hwords : s.wordsAt 1 = [h] := by simp [State.wordsAt, hstream]
    rw [step_illegal hfault hfetch, State.faulted, hwords]
  · have hfetch : fetch s = .truncated (tableLen h) := by
      rw [fetch, hstream, decode_of_truncated hh hlen]
    have hwords : s.wordsAt (tableLen h) = h :: rest := by
      rw [State.wordsAt, hstream, List.take_of_length_le hlen.le]
    rw [step_truncated hfault hfetch, State.faulted, hwords]

end Sys2Proof.Machine
end

section
/-! PROOF. Decoding and encoding are inverse (30_encoding R79, R80, R85). A legal header whose words
the list holds decodes to its fields, so each direction of the round trip is a fact about the fields
of one header and of the words after it. -/

namespace Sys2Proof

/-! ### What a legal header decodes to -/

theorem decode_of_legal {h : Word} {rest : List Word} {op : Opcode}
    (ho : Opcode.ofByte (opField h) = some op) (hz : h &&& op.zeroMask = 0)
    (hlen : op.len ≤ rest.length + 1) :
    decode (h :: rest) = .instr (assembleFields op h (rest.getD 0 0) (rest.getD 1 0)) := by
  rw [decode_cons ho, if_neg (not_not_intro hz), List.length_cons, if_neg (Nat.not_lt.mpr hlen)]

/-- A legal header with all its words decodes to a command of its table length. -/
theorem decode_of_complete {h : Word} {rest : List Word} (hh : ¬ Machine.IllegalHeader h)
    (hlen : Machine.tableLen h ≤ rest.length + 1) :
    ∃ i : Instr, decode (h :: rest) = .instr i ∧ i.len = Machine.tableLen h := by
  obtain ⟨op, ho, hz⟩ := not_illegalHeader_iff.mp hh
  have htable := tableLen_eq (Opcode.byte_of_ofByte ho).symm
  refine ⟨_, decode_of_legal ho hz (htable ▸ hlen), ?_⟩
  rw [Instr.len, assembleFields_opcode, htable]

/-- A list of words that decodes to a command starts with a legal header and holds its words. -/
theorem decode_eq_instr {ws : List Word} {i : Instr} (hd : decode ws = .instr i) :
    ∃ h rest op, ws = h :: rest ∧ Opcode.ofByte (opField h) = some op ∧ h &&& op.zeroMask = 0 ∧
      op.len ≤ rest.length + 1 ∧ i = assembleFields op h (rest.getD 0 0) (rest.getD 1 0) := by
  cases ws with
  | nil => cases hd
  | cons h rest =>
    by_cases hill : Machine.IllegalHeader h
    · rw [decode_of_illegal rest hill] at hd
      cases hd
    · obtain ⟨op, ho, hz⟩ := not_illegalHeader_iff.mp hill
      have hlen := decode_instr_len hd
      by_cases hshort : rest.length + 1 < Machine.tableLen h
      · rw [decode_of_truncated hill hshort] at hd
        cases hd
      · rw [tableLen_eq (Opcode.byte_of_ofByte ho).symm, Nat.not_lt] at hshort
        rw [decode_of_legal ho hz hshort] at hd
        cases hd
        exact ⟨h, rest, op, rfl, ho, hz, hshort, rfl⟩

/-! ### From a command to its words and back -/

open Laws.EncodesLegal in
theorem encode_legal (i : Instr) : Statement i := by
  cases i with
  | seld k => exact seld k
  | selm mask => exact selm mask
  | sela => exact sela
  | initall => exact initall
  | updall => exact updall
  | updd k => exact updd k
  | updm mask => exact updm mask
  | init d => exact init d
  | upd d => exact upd d
  | pwr d on => exact pwr d on
  | inv d on => exact inv d on
  | clr d c => exact clr d c
  | setpx d c x y => exact setpx d c x y
  | getpx d x y => exact getpx d x y
  | rect d c x1 y1 x2 y2 => exact rect d c x1 y1 x2 y2
  | img d id x y => exact img d id x y
  | glyph d cov th x y => exact glyph d cov th x y
  | tonat d x y => exact tonat d x y
  | mkrgb r g b => exact mkrgb r g b
  | getr c => exact getr c
  | getg c => exact getg c
  | getb c => exact getb c

/-- The fields of an encoding are the operands, each of which fits its field. -/
theorem assembleFields_encode {i : Instr} (hi : i.wellFormed = true) (rest : List Word) :
    assembleFields i.opcode ((encode i ++ rest).getD 0 0) ((encode i ++ rest).getD 1 0)
      ((encode i ++ rest).getD 2 0) = i := by
  cases i with
  | selm | sela | initall | updall | updm | mkrgb | getr | getg | getb =>
    simp [encode, Instr.opcode, assembleFields]
  | seld | updd | init | upd | pwr | inv | clr =>
    have hindex : fitsIndex _ = true := hi
    simp [encode, Instr.opcode, assembleFields, hindex]
  | setpx | getpx | img | glyph | tonat =>
    simp only [Instr.wellFormed, Bool.and_eq_true] at hi
    obtain ⟨⟨hindex, hx⟩, hy⟩ := hi
    simp [encode, Instr.opcode, assembleFields, hindex, hx, hy]
  | rect =>
    simp only [Instr.wellFormed, Bool.and_eq_true] at hi
    obtain ⟨⟨⟨⟨hindex, hx1⟩, hy1⟩, hx2⟩, hy2⟩ := hi
    simp [encode, Instr.opcode, assembleFields, hindex, hx1, hy1, hx2, hy2]

/-! ### From words to a command and back -/

theorem header_fields {h : Word} {op : Opcode} (ho : opField h = op.byte) :
    header op (midField h) (argField h) = h := by
  have htop : opField h ++ midField h = h.extractLsb' 16 16 :=
    BitVec.extractLsb'_append_extractLsb'_eq_extractLsb' rfl
  rw [header, ← ho, htop]
  exact BitVec.extractLsb'_append_extractLsb' (w := 16) (len := 16) (x := h)

theorem indexByte_indexField (h : Word) : indexByte (indexField h) = midField h := by
  simp [indexByte, indexField]

theorem hiField_append_loField (h : Word) : hiField h ++ loField h = argField h :=
  BitVec.extractLsb'_append_extractLsb'_eq_extractLsb' rfl

/-- Where every other bit of the argument is 0, bit 0 is the whole argument. -/
theorem onArg_onField {h : Word} (hz : h &&& 0x0000FFFE#32 = 0#32) :
    onArg (onField h) = argField h := by
  have hrest : h.extractLsb' 1 15 = 0 := (and_argAboveBit0_eq_zero h).mp hz
  have hparts : h.extractLsb' 1 15 ++ h.extractLsb' 0 1 = argField h :=
    BitVec.extractLsb'_append_extractLsb'_eq_extractLsb' rfl
  have hbit : h.extractLsb' 0 1 = BitVec.ofBool (onField h) := by
    ext j hj
    obtain rfl : j = 0 := by omega
    simp [onField]
  rw [← hparts, hrest, hbit]
  cases onField h <;> rfl

theorem pointWord_points (w : Word) : pointWord (pointX w) (pointY w) = w := by
  simp only [pointWord, pointX, pointY, BitVec.ofInt_toInt]
  exact BitVec.extractLsb'_append_extractLsb' (w := 16) (len := 16) (x := w)

theorem fitsIndex_indexField (h : Word) : fitsIndex (indexField h) = true :=
  decide_eq_true (midField h).isLt

theorem fitsCoord_toInt (v : BitVec 16) : fitsCoord v.toInt = true := by
  have hlow := BitVec.le_toInt v
  have hhigh := BitVec.toInt_lt (x := v)
  exact decide_eq_true (by omega)

theorem fitsCoord_pointX (w : Word) : fitsCoord (pointX w) = true := fitsCoord_toInt _

theorem fitsCoord_pointY (w : Word) : fitsCoord (pointY w) = true := fitsCoord_toInt _

/-- What the decoder builds is well formed: every field is as wide as its operand may be. -/
theorem assembleFields_wellFormed (op : Opcode) (h w1 w2 : Word) :
    (assembleFields op h w1 w2).wellFormed = true := by
  cases op <;>
    simp [assembleFields, Instr.wellFormed, fitsIndex_indexField, fitsCoord_pointX,
      fitsCoord_pointY]

/-- The words of a command of at most three are those its decoder reads. -/
theorem take_getD_words {h : Word} {rest : List Word} {len : Nat} (hlen : len ≤ rest.length + 1)
    (hmax : len ≤ 3) : [h, rest.getD 0 0, rest.getD 1 0].take len = (h :: rest).take len := by
  apply List.ext_getElem?
  intro j
  rw [List.getElem?_take, List.getElem?_take]
  by_cases hj : j < len
  · rcases j with _ | _ | _ | j
    · rfl
    · simp [hj, show 0 < rest.length by omega]
    · simp [hj, show 1 < rest.length by omega]
    · omega
  · simp [hj]

/-- A legal header and two words encode back from their fields, as far as the command reaches. -/
theorem encode_assembleFields {op : Opcode} {h : Word} (ho : opField h = op.byte)
    (hz : h &&& op.zeroMask = 0) (w1 w2 : Word) :
    encode (assembleFields op h w1 w2) = [h, w1, w2].take op.len := by
  have hh := header_fields ho
  cases op with
  | selm | sela | initall | updall | updm =>
    obtain ⟨harg, hmid⟩ := (and_midArg_eq_zero h).mp hz
    rw [show argField h = 0#16 from harg, show midField h = 0#8 from hmid] at hh
    simp [assembleFields, encode, Opcode.len, hh]
  | seld | updd | init | upd | getpx | tonat =>
    rw [show argField h = 0#16 from (and_arg_eq_zero h).mp hz] at hh
    simp [assembleFields, encode, Opcode.len, hh, indexByte_indexField, pointWord_points]
  | pwr | inv =>
    simp [assembleFields, encode, Opcode.len, hh, indexByte_indexField, onArg_onField hz]
  | clr | setpx | rect | img | glyph | mkrgb =>
    simp [assembleFields, encode, Opcode.len, hh, indexByte_indexField, pointWord_points,
      hiField_append_loField]
  | getr | getg | getb =>
    rw [show midField h = 0#8 from (and_mid_eq_zero h).mp hz] at hh
    simp [assembleFields, encode, Opcode.len, hh]

end Sys2Proof

namespace Sys2Proof.Machine

/-- Settles O1: the encoding is a legal header with its words, and its fields are the operands. -/
theorem decodeOfEncodeGivesCommand : Obligations.DecodeOfEncodeGivesCommand := by
  intro i rest hi
  obtain ⟨hlen, h, ops, he, ho, hz⟩ := encode_legal i
  have hfields := assembleFields_encode hi rest
  rw [he, List.length_cons] at hlen
  rw [he] at hfields ⊢
  have hwords : i.opcode.len ≤ (ops ++ rest).length + 1 := by
    rw [← Instr.len, ← hlen, List.length_append]
    omega
  rw [List.cons_append, decode_of_legal ho hz hwords]
  exact congrArg Decoded.instr hfields

/-- Settles O2: a decoded command is made of the fields of a legal header and its words. -/
theorem encodeOfDecodeGivesWords : Obligations.EncodeOfDecodeGivesWords := by
  intro ws i hd
  obtain ⟨h, rest, op, rfl, ho, hz, hlen, rfl⟩ := decode_eq_instr hd
  refine ⟨assembleFields_wellFormed .., ?_⟩
  rw [encode_assembleFields (Opcode.byte_of_ofByte ho).symm hz, Instr.len, assembleFields_opcode]
  exact take_getD_words hlen op.len_le

/-- Settles O3: an illegal header is rejected; a legal one is truncated or decodes, by its
length. -/
theorem decoderRejectsExactlyIllegalHeaders : Obligations.DecoderRejectsExactlyIllegalHeaders := by
  intro h rest
  refine ⟨⟨fun hd => ?_, decode_of_illegal rest⟩, decode_of_truncated, decode_of_complete⟩
  by_contra hh
  rcases Nat.lt_or_ge (rest.length + 1) (tableLen h) with hlen | hlen
  · simp [decode_of_truncated hh hlen] at hd
  · obtain ⟨i, hi, -⟩ := decode_of_complete hh hlen
    simp [hi] at hd

/-- Settles O4: nine closed words, decoded. -/
theorem writtenOutWordsDecode : Obligations.WrittenOutWordsDecode := by
  refine ⟨?_, ?_, ?_, ?_, ?_, ?_, ?_, ?_, ?_⟩ <;> decide

end Sys2Proof.Machine
end

section
/-! PROOF. What every command does, said once. A command takes a fault from `Faults`, or it runs a
body and returns as `Returns` says; `exec` answers accordingly, and one of the two always holds.
Facts about a command's next state are case splits over these two relations. -/

namespace Sys2Proof.Machine

/-! ### The two ends of a command -/

/-- The fault a command takes in `s` (60_exceptions R232-R235, R248; 20_memory R56). -/
inductive Faults (s : State) : Instr → FaultCode → Prop
  | operand {i : Instr} {d : Nat} (h : formatDOperand i = some d) (hd : s.numSlots ≤ d) :
      Faults s i .badIndex
  | seldIndex {k : Nat} (hk : s.numSlots ≤ k) : Faults s (.seld k) .badIndex
  | upddIndex {k : Nat} (hk : s.numSlots ≤ k) : Faults s (.updd k) .badIndex
  | selmMask {mask : Word} (hm : maskBeyond mask s.numSlots = true) :
      Faults s (.selm mask) .badIndex
  | updmMask {mask : Word} (hm : maskBeyond mask s.numSlots = true) :
      Faults s (.updm mask) .badIndex
  | updNotReady {d : Nat} {q : Display} (hq : s.display d = some q)
      (hr : q.driver.lifecycle ≠ .ready) : Faults s (.upd d) .notInitialized
  | pwrNotReady {d : Nat} {q : Display} {on : Bool} (hq : s.display d = some q)
      (hr : q.driver.lifecycle ≠ .ready) : Faults s (.pwr d on) .notInitialized
  | invNotReady {d : Nat} {q : Display} {on : Bool} (hq : s.display d = some q)
      (hr : q.driver.lifecycle ≠ .ready) : Faults s (.inv d on) .notInitialized
  | updallNotReady {k : Nat} (hk : k < s.numSlots) (hr : s.notReadyAt k = true) :
      Faults s .updall .notInitialized
  | upddNotReady {k : Nat} (hk : k < s.numSlots) (hr : s.notReadyAt k = true) :
      Faults s (.updd k) .notInitialized
  | updmNotReady {mask : Word} {k : Nat} (hm : maskBeyond mask s.numSlots = false)
      (hk : k ∈ maskedSlots mask s.numSlots) (hr : s.notReadyAt k = true) :
      Faults s (.updm mask) .notInitialized
  | initUnknown {d : Nat} {q : Display} (hq : s.display d = some q) (hc : s.chain.known = false) :
      Faults s (.init d) .chainUnknown
  | updUnknown {d : Nat} {q : Display} (hq : s.display d = some q)
      (hr : q.driver.lifecycle = .ready) (hc : s.chain.known = false) :
      Faults s (.upd d) .chainUnknown
  | pwrUnknown {d : Nat} {q : Display} {on : Bool} (hq : s.display d = some q)
      (hr : q.driver.lifecycle = .ready) (hc : s.chain.known = false) :
      Faults s (.pwr d on) .chainUnknown
  | invUnknown {d : Nat} {q : Display} {on : Bool} (hq : s.display d = some q)
      (hr : q.driver.lifecycle = .ready) (hc : s.chain.known = false) :
      Faults s (.inv d on) .chainUnknown
  | imgMissing {d : Nat} {q : Display} {id : BitVec 16} {x y : Int} (hq : s.display d = some q)
      (hid : s.cfg.image id = none) : Faults s (.img d id x y) .badImage

/-- The state a command's body leaves before the return, with the status and the value returned. -/
inductive Returns (s : State) : Instr → State → Status → Option Value → Prop
  | absent {i : Instr} {d : Nat} (h : formatDOperand i = some d) (hd : d < s.numSlots)
      (hq : s.display d = none) : Returns s i s .absent none
  | seld {k : Nat} (hk : k < s.numSlots) : Returns s (.seld k) (walkTo k s) .ok none
  | selm {mask : Word} (hm : maskBeyond mask s.numSlots = false) :
      Returns s (.selm mask) (walk (maskVec mask s.numSlots) s) .ok none
  | sela : Returns s .sela (walk (allVec s.numPositions) s) .ok none
  | initall : Returns s .initall
      ((List.range s.numSlots).foldl initAt (s.emit (s.cfg.globalResetPulse.map pulseEvent)))
      .ok none
  | updall (hr : ∀ k < s.numSlots, s.notReadyAt k = false) :
      Returns s .updall ((List.range s.numSlots).foldl updateAt s) .ok none
  | upddAbsent {k : Nat} (hk : k < s.numSlots) (hq : s.display k = none) :
      Returns s (.updd k) (walkTo k s) .absent none
  | updd {k : Nat} {q : Display} (hq : s.display k = some q) (hr : q.driver.lifecycle = .ready) :
      Returns s (.updd k) (flipAt s k) .ok none
  | updm {mask : Word} (hm : maskBeyond mask s.numSlots = false)
      (hr : ∀ k ∈ maskedSlots mask s.numSlots, s.notReadyAt k = false) :
      Returns s (.updm mask) ((maskedSlots mask s.numSlots).foldl flipAt s) .ok none
  | init {d : Nat} {q : Display} (hq : s.display d = some q) (hc : s.chain.known = true) :
      Returns s (.init d) (initBody d q s) .ok none
  | upd {d : Nat} {q : Display} (hq : s.display d = some q) (hr : q.driver.lifecycle = .ready)
      (hc : s.chain.known = true) : Returns s (.upd d) (updBody d q s) .ok none
  | pwr {d : Nat} {q : Display} {on : Bool} (hq : s.display d = some q)
      (hr : q.driver.lifecycle = .ready) (hc : s.chain.known = true) :
      Returns s (.pwr d on)
        ((s.emit (sendCmd s.chain.selected (powerByte s.cfg on) [])).setOn d on) .ok none
  | inv {d : Nat} {q : Display} {on : Bool} (hq : s.display d = some q)
      (hr : q.driver.lifecycle = .ready) (hc : s.chain.known = true) :
      Returns s (.inv d on)
        ((s.emit
          (sendCmd s.chain.selected (invertByte s.cfg q.panel.variant on) [])).setInverted d on)
        .ok none
  | clr {d : Nat} {q : Display} {c : Color} (hq : s.display d = some q) :
      Returns s (.clr d c) (s.setFb d (q.fb.fill (cellCount q.panel) c)) .ok none
  | setpx {d : Nat} {q : Display} {c : Color} {x y : Int} {r : Nat} (hq : s.display d = some q)
      (hr : nativeIndex q.panel x y = some r) :
      Returns s (.setpx d c x y) (s.setFb d (q.fb.write r c)) .ok none
  | setpxOutside {d : Nat} {q : Display} {c : Color} {x y : Int} (hq : s.display d = some q)
      (hr : nativeIndex q.panel x y = none) : Returns s (.setpx d c x y) s .outOfBounds none
  | getpx {d : Nat} {q : Display} {x y : Int} {r : Nat} (hq : s.display d = some q)
      (hr : nativeIndex q.panel x y = some r) :
      Returns s (.getpx d x y) s .ok (some (.color (q.fb.read r)))
  | getpxOutside {d : Nat} {q : Display} {x y : Int} (hq : s.display d = some q)
      (hr : nativeIndex q.panel x y = none) : Returns s (.getpx d x y) s .outOfBounds none
  | rect {d : Nat} {q : Display} {c : Color} {x1 y1 x2 y2 : Int} (hq : s.display d = some q) :
      Returns s (.rect d c x1 y1 x2 y2) (s.setFb d (drawRect q.panel c x1 y1 x2 y2 q.fb)) .ok none
  | img {d : Nat} {q : Display} {id : BitVec 16} {im : Image} {x y : Int}
      (hq : s.display d = some q) (hid : s.cfg.image id = some im) :
      Returns s (.img d id x y) (s.setFb d (drawImage q.panel im x y q.fb)) .ok none
  | glyph {d : Nat} {q : Display} {cov th : Byte} {x y : Int} {r : Nat} (hq : s.display d = some q)
      (hr : nativeIndex q.panel x y = some r) :
      Returns s (.glyph d cov th x y)
        (s.setFb d (q.fb.write r (glyphColor cov th (q.fb.read r)))) .ok none
  | glyphOutside {d : Nat} {q : Display} {cov th : Byte} {x y : Int} (hq : s.display d = some q)
      (hr : nativeIndex q.panel x y = none) : Returns s (.glyph d cov th x y) s .outOfBounds none
  | tonat {d : Nat} {q : Display} {x y : Int} {r : Nat} (hq : s.display d = some q)
      (hr : nativeIndex q.panel x y = some r) :
      Returns s (.tonat d x y) s .ok (some (.point (r % q.panel.pixWidth) (r / q.panel.pixWidth)))
  | tonatOutside {d : Nat} {q : Display} {x y : Int} (hq : s.display d = some q)
      (hr : nativeIndex q.panel x y = none) : Returns s (.tonat d x y) s .outOfBounds none
  | mkrgb {r g b : Byte} : Returns s (.mkrgb r g b) s .ok (some (.color (makeRGB r g b)))
  | getr {c : Color} : Returns s (.getr c) s .ok (some (.channel (getR c)))
  | getg {c : Color} : Returns s (.getg c) s .ok (some (.channel (getG c)))
  | getb {c : Color} : Returns s (.getb c) s .ok (some (.channel (getB c)))

/-! ### `exec` answers what the relations say -/

theorem whenReady_unknown {q : Display} {s : State} {go : Outcome}
    (hr : q.driver.lifecycle = .ready) (hc : s.chain.known = false) :
    whenReady q s go = .next (s.faulted .chainUnknown 1) := by
  simp [whenReady, Display.isReady, hr, hc, raiseFault_eq]

theorem whenReady_goes {q : Display} {s : State} {go : Outcome}
    (hr : q.driver.lifecycle = .ready) (hc : s.chain.known = true) : whenReady q s go = go := by
  simp [whenReady, Display.isReady, hr, hc]

theorem State.notReadyAt_of_ready {s : State} {d : Nat} {q : Display} (hd : s.display d = some q)
    (h : q.driver.lifecycle = .ready) : s.notReadyAt d = false := by
  simp [State.notReadyAt, hd, Display.isReady, h]

theorem exec_of_faults {s : State} {i : Instr} {code : FaultCode} (h : Faults s i code) :
    exec i s = .next (s.faulted code i.len) := by
  cases h with
  | operand h hd => exact exec_formatD_badIndex h hd
  | seldIndex hk => exact execSeld_badIndex hk
  | upddIndex hk => exact execUpdd_badIndex hk
  | selmMask hm => exact execSelm_badIndex hm
  | updmMask hm => exact execUpdm_badIndex hm
  | updNotReady hq hr | pwrNotReady hq hr | invNotReady hq hr =>
    exact (withDisplay_present hq).trans (whenReady_notReady hr)
  | updallNotReady hk hr => exact execUpdall_notReady hk hr
  | upddNotReady hk hr => exact execUpdd_notReady hk hr
  | updmNotReady hm hk hr => exact execUpdm_notReady hm hk hr
  | initUnknown hq hc => exact (withDisplay_present hq).trans (if_neg (by simp [hc]))
  | updUnknown hq hr hc | pwrUnknown hq hr hc | invUnknown hq hr hc =>
    exact (withDisplay_present hq).trans (whenReady_unknown hr hc)
  | imgMissing hq hid => exact execImg_no_image _ _ hq hid

theorem exec_of_returns {s u : State} {i : Instr} {st : Status} {v : Option Value}
    (h : Returns s i u st v) : exec i s = .next (u.finish i.len st v) := by
  cases h with
  | absent h hd hq => exact exec_formatD_absent h hd hq
  | seld hk => exact if_pos hk
  | selm hm => exact if_neg (by simp [hm])
  | sela | initall | mkrgb | getr | getg | getb => rfl
  | updall hr => exact if_neg (by simpa using hr)
  | upddAbsent hk hq => exact execUpdd_absent hk hq
  | updd hq hr =>
    have hready := State.notReadyAt_of_ready hq hr
    show execUpdd _ s = _
    rw [execUpdd, if_pos (State.lt_of_display hq), if_neg (by simp [hready]), hq]
    rfl
  | updm hm hr =>
    show execUpdm _ s = _
    rw [execUpdm, if_neg (by simp [hm]), if_neg (by simpa using hr)]
    rfl
  | init hq hc => exact (withDisplay_present hq).trans (if_pos hc)
  | upd hq hr hc | pwr hq hr hc | inv hq hr hc =>
    exact (withDisplay_present hq).trans (whenReady_goes hr hc)
  | clr hq | rect hq => exact withDisplay_present hq
  | setpx hq hr | setpxOutside hq hr =>
    exact (withDisplay_present hq).trans (by rw [setPixel, hr]; rfl)
  | getpx hq hr | getpxOutside hq hr =>
    exact (withDisplay_present hq).trans (by rw [getPixel, hr]; rfl)
  | img hq hid => exact (withDisplay_present hq).trans (by rw [hid]; rfl)
  | glyph hq hr =>
    exact (withDisplay_present hq).trans (by rw [getPixel, hr, ← putPixel_of_some hr]; rfl)
  | glyphOutside hq hr => exact (withDisplay_present hq).trans (by rw [getPixel, hr]; rfl)
  | tonat hq hr | tonatOutside hq hr => exact (withDisplay_present hq).trans (by rw [hr]; rfl)

/-! ### One of the two always holds -/

/-- Command `i` takes a fault or returns. -/
def Ends (s : State) (i : Instr) : Prop :=
  (∃ code, Faults s i code) ∨ ∃ u st v, Returns s i u st v

theorem Ends.of_faults {s : State} {i : Instr} {code : FaultCode} (h : Faults s i code) :
    Ends s i :=
  .inl ⟨code, h⟩

theorem Ends.of_returns {s u : State} {i : Instr} {st : Status} {v : Option Value}
    (h : Returns s i u st v) : Ends s i :=
  .inr ⟨u, st, v, h⟩

/-- The slot checks of a format-D command, before its own work on a present display. -/
theorem Ends.of_formatD {s : State} {i : Instr} {d : Nat} (h : formatDOperand i = some d)
    (hpresent : ∀ q, s.display d = some q → Ends s i) : Ends s i := by
  rcases Nat.lt_or_ge d s.numSlots with hd | hd
  · cases hq : s.display d with
    | none => exact .of_returns (.absent h hd hq)
    | some q => exact hpresent q hq
  · exact .of_faults (.operand h hd)

/-- The two checks of UPD, PWR and INV on a present display. -/
theorem Ends.of_ready {s u : State} {i : Instr} {q : Display}
    (hnot : q.driver.lifecycle ≠ .ready → Faults s i .notInitialized)
    (hunknown : q.driver.lifecycle = .ready → s.chain.known = false → Faults s i .chainUnknown)
    (hgoes : q.driver.lifecycle = .ready → s.chain.known = true → Returns s i u .ok none) :
    Ends s i := by
  by_cases hr : q.driver.lifecycle = .ready
  · cases hc : s.chain.known with
    | false => exact .of_faults (hunknown hr hc)
    | true => exact .of_returns (hgoes hr hc)
  · exact .of_faults (hnot hr)

/-- The bounds check of SETPX, GETPX, GLYPH and TONAT. -/
theorem Ends.of_pixel {s : State} {i : Instr} {p : Panel} {x y : Int}
    (hin : ∀ r, nativeIndex p x y = some r → Ends s i)
    (hout : nativeIndex p x y = none → Returns s i s .outOfBounds none) : Ends s i := by
  cases hr : nativeIndex p x y with
  | none => exact .of_returns (hout hr)
  | some r => exact hin r hr

/-- The index check of SELD and UPDD. -/
theorem Ends.of_index {s : State} {i : Instr} {k : Nat}
    (hbad : s.numSlots ≤ k → Faults s i .badIndex) (hgood : k < s.numSlots → Ends s i) :
    Ends s i := by
  rcases Nat.lt_or_ge k s.numSlots with hk | hk
  · exact hgood hk
  · exact .of_faults (hbad hk)

/-- The mask check of SELM and UPDM. -/
theorem Ends.of_mask {s : State} {i : Instr} {mask : Word}
    (hbad : maskBeyond mask s.numSlots = true → Faults s i .badIndex)
    (hgood : maskBeyond mask s.numSlots = false → Ends s i) : Ends s i := by
  cases hm : maskBeyond mask s.numSlots with
  | true => exact .of_faults (hbad hm)
  | false => exact hgood hm

/-- The readiness check of UPDALL and UPDM over their targets. -/
theorem Ends.of_targets {s u : State} {i : Instr} {l : List Nat}
    (hbad : ∀ k ∈ l, s.notReadyAt k = true → Faults s i .notInitialized)
    (hgood : (∀ k ∈ l, s.notReadyAt k = false) → Returns s i u .ok none) : Ends s i := by
  by_cases h : ∃ k ∈ l, s.notReadyAt k = true
  · obtain ⟨k, hk, hr⟩ := h
    exact .of_faults (hbad k hk hr)
  · exact .of_returns (hgood fun k hk => Bool.eq_false_of_not_eq_true fun hr => h ⟨k, hk, hr⟩)

theorem ends (s : State) (i : Instr) : Ends s i := by
  cases i with
  | seld k => exact .of_index .seldIndex fun hk => .of_returns (.seld hk)
  | selm mask => exact .of_mask .selmMask fun hm => .of_returns (.selm hm)
  | sela => exact .of_returns .sela
  | initall => exact .of_returns .initall
  | updall =>
    exact .of_targets (fun k hk => .updallNotReady (List.mem_range.mp hk))
      fun hr => .updall fun k hk => hr k (List.mem_range.mpr hk)
  | updd k =>
    refine .of_index .upddIndex fun hk => ?_
    cases hq : s.display k with
    | none => exact .of_returns (.upddAbsent hk hq)
    | some q =>
      by_cases hr : q.driver.lifecycle = .ready
      · exact .of_returns (.updd hq hr)
      · exact .of_faults (.upddNotReady hk (State.notReadyAt_of_display hq hr))
  | updm mask =>
    exact .of_mask .updmMask fun hm => .of_targets (fun k => .updmNotReady hm) (.updm hm)
  | init d =>
    refine .of_formatD rfl fun q hq => ?_
    cases hc : s.chain.known with
    | false => exact .of_faults (.initUnknown hq hc)
    | true => exact .of_returns (.init hq hc)
  | upd d =>
    exact .of_formatD rfl fun q hq => .of_ready (.updNotReady hq) (.updUnknown hq) (.upd hq)
  | pwr d on =>
    exact .of_formatD rfl fun q hq => .of_ready (.pwrNotReady hq) (.pwrUnknown hq) (.pwr hq)
  | inv d on =>
    exact .of_formatD rfl fun q hq => .of_ready (.invNotReady hq) (.invUnknown hq) (.inv hq)
  | clr d c => exact .of_formatD rfl fun q hq => .of_returns (.clr hq)
  | setpx d c x y =>
    exact .of_formatD rfl fun q hq =>
      .of_pixel (fun r hr => .of_returns (.setpx hq hr)) (.setpxOutside hq)
  | getpx d x y =>
    exact .of_formatD rfl fun q hq =>
      .of_pixel (fun r hr => .of_returns (.getpx hq hr)) (.getpxOutside hq)
  | rect d c x1 y1 x2 y2 => exact .of_formatD rfl fun q hq => .of_returns (.rect hq)
  | img d id x y =>
    refine .of_formatD rfl fun q hq => ?_
    cases hid : s.cfg.image id with
    | none => exact .of_faults (.imgMissing hq hid)
    | some im => exact .of_returns (.img hq hid)
  | glyph d cov th x y =>
    exact .of_formatD rfl fun q hq =>
      .of_pixel (fun r hr => .of_returns (.glyph hq hr)) (.glyphOutside hq)
  | tonat d x y =>
    exact .of_formatD rfl fun q hq =>
      .of_pixel (fun r hr => .of_returns (.tonat hq hr)) (.tonatOutside hq)
  | mkrgb r g b => exact .of_returns .mkrgb
  | getr c => exact .of_returns .getr
  | getg c => exact .of_returns .getg
  | getb c => exact .of_returns .getb

/-- Everything a command that answers a next state has done. -/
theorem exec_cases {i : Instr} {s t : State} (h : exec i s = .next t) :
    (∃ code, Faults s i code ∧ t = s.faulted code i.len) ∨
      ∃ u st v, Returns s i u st v ∧ t = u.finish i.len st v := by
  obtain ⟨code, hf⟩ | ⟨u, st, v, hu⟩ := ends s i
  · rw [exec_of_faults hf] at h
    cases h
    exact .inl ⟨code, hf, rfl⟩
  · rw [exec_of_returns hu] at h
    cases h
    exact .inr ⟨u, st, v, hu, rfl⟩

end Sys2Proof.Machine
end

section
/-! PROOF. The effect of a body as one action on one display: INIT, UPD, PWR, INV and the drawing
commands change the display of their slot and emit events that drive no pin of the chain, so each is
`State.act` of a change and an event list. -/

namespace Sys2Proof.Machine

/-- The display in slot `d` changed by `f`, and quiet events sent. -/
def State.act (s : State) (d : Nat) (f : Display → Display) (evs : List Event) : State :=
  { s.updDisplay d f with trace := s.trace ++ evs }

section
variable (s : State) (d : Nat) (f : Display → Display) (evs : List Event)

@[simp] theorem State.act_chain : (s.act d f evs).chain = s.chain := rfl
@[simp] theorem State.act_trace : (s.act d f evs).trace = s.trace ++ evs := rfl

@[simp] theorem State.act_numSlots : (s.act d f evs).numSlots = s.numSlots :=
  State.updDisplay_numSlots ..

theorem State.act_display (k : Nat) :
    (s.act d f evs).display k = if k = d then (s.display k).map f else s.display k :=
  State.updDisplay_display ..

theorem State.act_panel (hf : ∀ q, (f q).panel = q.panel) (k : Nat) :
    (s.act d f evs).panel k = s.panel k :=
  State.updDisplay_panel s d f hf k

theorem State.act_frame (hf : ∀ q, (f q).panel = q.panel) : BodyFrame s (s.act d f evs) :=
  ⟨⟨rfl, rfl, s.act_numSlots d f evs, s.act_panel d f evs hf⟩, rfl, rfl, rfl, evs, rfl⟩

end

/-! ### Changes of one display -/

theorem State.updDisplay_congr {s : State} {d : Nat} {f g : Display → Display}
    (h : ∀ q, s.display d = some q → f q = g q) : s.updDisplay d f = s.updDisplay d g := by
  have hslots : s.slots.modify d (Option.map f) = s.slots.modify d (Option.map g) := by
    apply List.ext_getElem?
    intro k
    rw [List.getElem?_modify, List.getElem?_modify]
    split
    · next hk =>
      subst hk
      match hs : s.slots[d]? with
      | none | some none => rfl
      | some (some q) => simp [h q (State.display_eq_some.mpr hs)]
    · rfl
  simp only [State.updDisplay, hslots]

/-- A change that leaves the display of its slot as it is changes nothing. -/
theorem State.updDisplay_eq_self {s : State} {d : Nat} {f : Display → Display}
    (h : ∀ q, s.display d = some q → f q = q) : s.updDisplay d f = s := by
  have hid : s.updDisplay d id = s := by simp [State.updDisplay]
  exact (State.updDisplay_congr h).trans hid

theorem State.updDisplay_updDisplay (s : State) (d : Nat) (f g : Display → Display) :
    (s.updDisplay d f).updDisplay d g = s.updDisplay d (g ∘ f) := by
  simp only [State.updDisplay, List.modify_modify_eq]
  congr 2
  funext o
  cases o <;> rfl

/-- The record INIT leaves. -/
def Display.initialise (q : Display) : Display := { q with driver := .initialised }

/-- The record UPD leaves. -/
def Display.powerOn (q : Display) : Display := { q with driver := driverAfterUpd q.driver }

/-- What UPDD and UPDM leave of a display: UPD's record and a clear buffer. -/
def Display.flip (cfg : Cfg) (q : Display) : Display :=
  { q.powerOn with fb := q.fb.fill (cellCount q.panel) cfg.flipClearColor }

/-! ### The bodies as actions -/

theorem initBody_eq_act (d : Nat) (q : Display) (s : State) :
    initBody d q s = s.act d Display.initialise (initEvents s.cfg q.panel s.chain.selected) :=
  initBody_eq d q s

theorem updBody_eq_act {d : Nat} {q : Display} {s : State} (hq : s.display d = some q) :
    updBody d q s = s.act d Display.powerOn (updEvents s.cfg q s.chain.selected) := by
  have hslot : (if q.driver.on = some false then s.setOn d true else s) =
      s.updDisplay d Display.powerOn := by
    split
    · next hon =>
      refine State.updDisplay_congr fun q' hq' => ?_
      cases hq.symm.trans hq'
      simp [Display.powerOn, driverAfterUpd, hon]
    · next hon =>
      refine (State.updDisplay_eq_self fun q' hq' => ?_).symm
      cases hq.symm.trans hq'
      simp [Display.powerOn, driverAfterUpd, hon]
  rw [updBody_eq, hslot]
  rfl

theorem emit_setOn_eq_act (s : State) (d : Nat) (on : Bool) {evs : List Event}
    (h : ∀ e ∈ evs, e.quiet) : (s.emit evs).setOn d on =
      s.act d (fun q => { q with driver := { q.driver with on := some on } }) evs := by
  rw [State.emit_of_quiet s h]
  rfl

theorem emit_setInverted_eq_act (s : State) (d : Nat) (on : Bool) {evs : List Event}
    (h : ∀ e ∈ evs, e.quiet) : (s.emit evs).setInverted d on =
      s.act d (fun q => { q with driver := { q.driver with inverted := some on } }) evs := by
  rw [State.emit_of_quiet s h]
  rfl

theorem setFb_eq_act (s : State) (d : Nat) (m : Memory) :
    s.setFb d m = s.act d (fun q => { q with fb := m }) [] := by
  rw [State.act, List.append_nil]
  rfl

theorem flipClear_updBody_eq_act {i : Nat} {q : Display} {s : State} (hq : s.display i = some q) :
    flipClear i q (updBody i q s) =
      s.act i (Display.flip s.cfg) (updEvents s.cfg q s.chain.selected) := by
  have hslot : (s.updDisplay i Display.powerOn).setFb i (q.fb.fill (cellCount q.panel)
      s.cfg.flipClearColor) = s.updDisplay i (Display.flip s.cfg) := by
    rw [State.setFb, State.updDisplay_updDisplay]
    refine State.updDisplay_congr fun q' hq' => ?_
    cases hq.symm.trans hq'
    rfl
  rw [updBody_eq_act hq, State.act, State.act, ← hslot]
  rfl

/-! ### What a body changes, command by command -/

/-- A command that does not walk leaves the state as it was, or acts on the display of its slot. -/
theorem Returns.acts {s u : State} {i : Instr} {st : Status} {v : Option Value}
    (h : Returns s i u st v) (hi : walkCommand i = false) :
    u = s ∨ ∃ d q f evs, s.display d = some q ∧ u = s.act d f evs := by
  cases h with
  | absent | setpxOutside | getpx | getpxOutside | glyphOutside | tonat | tonatOutside | mkrgb
  | getr | getg | getb => exact .inl rfl
  | init hq => exact .inr ⟨_, _, _, _, hq, initBody_eq_act ..⟩
  | upd hq => exact .inr ⟨_, _, _, _, hq, updBody_eq_act hq⟩
  | pwr hq => exact .inr ⟨_, _, _, _, hq, emit_setOn_eq_act _ _ _ (sendCmd_quiet _ _ _)⟩
  | inv hq => exact .inr ⟨_, _, _, _, hq, emit_setInverted_eq_act _ _ _ (sendCmd_quiet _ _ _)⟩
  | clr hq | setpx hq | rect hq | img hq | glyph hq => exact .inr ⟨_, _, _, _, hq, setFb_eq_act ..⟩
  | seld | selm | sela | initall | updall | upddAbsent | updd | updm => cases hi

/-- Settles O56: the chain is the same through an action, and fault entry and return keep it. -/
theorem onlyWalkCommandsMoveTheChain : Obligations.OnlyWalkCommandsMoveTheChain := by
  intro i s t hi h
  obtain ⟨code, -, rfl⟩ | ⟨u, st, v, hu, rfl⟩ := exec_cases h
  · rfl
  · obtain rfl | ⟨d, q, f, evs, -, rfl⟩ := hu.acts hi
    · rfl
    · rfl

end Sys2Proof.Machine
end

section
/-! PROOF. The orchestration loops (44_bus_addressor R205-R208). Each index of INITALL, UPDALL and
UPDM is a visit: the walk to the index, and an action on the display there. What a loop of visits
leaves is said once, for every action. -/

namespace Sys2Proof.Machine

/-- The walk to index `i`, and for a present display the change `f` and the events `evs` to the
selection the walk leaves. -/
def visit (evs : Cfg → Display → List Nat → List Event) (f : Cfg → Display → Display) (s : State)
    (i : Nat) : State :=
  (walkTo i s).act i (f s.cfg)
    ((s.display i).elim [] fun q => evs s.cfg q (walkTo i s).chain.selected)

/-- The events of INIT, as a visit sends them. -/
def visitInit (cfg : Cfg) (q : Display) (sel : List Nat) : List Event := initEvents cfg q.panel sel

/-! ### One visit -/

section
variable (evs : Cfg → Display → List Nat → List Event) (f : Cfg → Display → Display)

/-- At an absent slot a visit is its walk. -/
theorem visit_absent {s : State} {i : Nat} (hq : s.display i = none) :
    visit evs f s i = walkTo i s := by
  have hslot : (walkTo i s).updDisplay i (f s.cfg) = walkTo i s :=
    State.updDisplay_eq_self fun q h => by simp [hq] at h
  simp [visit, State.act, hq, hslot]

theorem visit_present {s : State} {i : Nat} {q : Display} (hq : s.display i = some q) :
    visit evs f s i =
      (walkTo i s).act i (f s.cfg) (evs s.cfg q (walkTo i s).chain.selected) := by
  rw [visit, hq]
  rfl

@[simp] theorem visit_cfg (s : State) (i : Nat) : (visit evs f s i).cfg = s.cfg := rfl

@[simp] theorem visit_numSlots (s : State) (i : Nat) : (visit evs f s i).numSlots = s.numSlots := by
  rw [visit, State.act_numSlots, walkTo_numSlots]

@[simp] theorem visit_chain (s : State) (i : Nat) :
    (visit evs f s i).chain = (walkTo i s).chain := rfl

theorem visit_display (s : State) (i k : Nat) :
    (visit evs f s i).display k = if k = i then (s.display k).map (f s.cfg) else s.display k := by
  rw [visit, State.act_display, walkTo_display]

theorem walkTo_trace (i : Nat) (s : State) :
    (walkTo i s).trace = s.trace ++ seldTrace s.numPositions i :=
  congrArg (s.trace ++ ·) (walkEvents_selVec _ i)

theorem walkTo_sr_length (i : Nat) (s : State) :
    (walkTo i s).chain.sr.length = s.chain.sr.length :=
  Chain.foldl_apply_sr_length _ _

/-- From a chain of `N + 1` stages the events of a visit are tagged with its index alone. -/
theorem visit_trace {s : State} {i : Nat} (hi : i < s.numPositions)
    (hs : s.chain.sr.length = s.numPositions) :
    (visit evs f s i).trace =
      s.trace ++
        (seldTrace s.numPositions i ++ (s.display i).elim [] fun q => evs s.cfg q [i]) := by
  have hsel := (State.sel_eq_some.mp (walkTo_selects hi hs).1).2
  rw [visit, State.act_trace, walkTo_trace, hsel, List.append_assoc]

theorem visit_selects {s : State} {i : Nat} (hi : i < s.numPositions)
    (hs : s.chain.sr.length = s.numPositions) :
    (visit evs f s i).sel = some [i] ∧ (visit evs f s i).chain.clock = .low := by
  rw [State.sel, visit_chain]
  exact walkTo_selects hi hs

/-! ### A loop of visits -/

@[simp] theorem visits_cfg (l : List Nat) (s : State) : (l.foldl (visit evs f) s).cfg = s.cfg := by
  induction l generalizing s with
  | nil => rfl
  | cons i l ih => rw [List.foldl_cons, ih, visit_cfg]

@[simp] theorem visits_numSlots (l : List Nat) (s : State) :
    (l.foldl (visit evs f) s).numSlots = s.numSlots := by
  induction l generalizing s with
  | nil => rfl
  | cons i l ih => rw [List.foldl_cons, ih, visit_numSlots]

theorem visits_sr_length (l : List Nat) (s : State) :
    (l.foldl (visit evs f) s).chain.sr.length = s.chain.sr.length := by
  induction l generalizing s with
  | nil => rfl
  | cons i l ih => rw [List.foldl_cons, ih, visit_chain, walkTo_sr_length]

/-- Every visited display is changed once, every other is kept. -/
theorem visits_display {l : List Nat} (hl : l.Nodup) (s : State) (k : Nat) :
    (l.foldl (visit evs f) s).display k =
      if k ∈ l then (s.display k).map (f s.cfg) else s.display k := by
  induction l generalizing s with
  | nil => simp
  | cons i l ih =>
    obtain ⟨hi, hl⟩ := List.nodup_cons.mp hl
    rw [List.foldl_cons, ih hl, visit_display, visit_cfg]
    by_cases hk : k = i
    · subst hk
      simp [hi]
    · simp [hk]

/-- The events of a loop: those of its visits in order. -/
theorem visits_trace {l : List Nat} (hl : l.Nodup) {s : State} (hlt : ∀ i ∈ l, i < s.numPositions)
    (hs : s.chain.sr.length = s.numPositions) :
    (l.foldl (visit evs f) s).trace = s.trace ++ l.flatMap fun i =>
      seldTrace s.numPositions i ++ (s.display i).elim [] fun q => evs s.cfg q [i] := by
  induction l generalizing s with
  | nil => simp
  | cons i l ih =>
    obtain ⟨hi, hl⟩ := List.nodup_cons.mp hl
    have hnum : (visit evs f s i).numPositions = s.numPositions := by simp [State.numPositions]
    have hlater : ∀ j ∈ l, (visit evs f s i).display j = s.display j := fun j hj => by
      rw [visit_display, if_neg (ne_of_mem_of_not_mem hj hi)]
    rw [List.foldl_cons, ih hl (fun j hj => hnum ▸ hlt j (by simp [hj]))
      (by rw [visit_chain, walkTo_sr_length, hnum, hs]), visit_trace evs f (hlt i (by simp)) hs,
      List.flatMap_cons, List.append_assoc, hnum, visit_cfg]
    congr 2
    exact List.flatMap_congr fun j hj => by rw [hlater j hj]

/-- After a loop that visits `j` last, `j` alone is selected. -/
theorem visits_selects {l : List Nat} {j : Nat} (hj : l.getLast? = some j) {s : State}
    (hlt : j < s.numPositions) (hs : s.chain.sr.length = s.numPositions) :
    (l.foldl (visit evs f) s).sel = some [j] ∧ (l.foldl (visit evs f) s).chain.clock = .low := by
  obtain ⟨l, rfl⟩ := List.getLast?_eq_some_iff.mp hj
  have hnum : (l.foldl (visit evs f) s).numPositions = s.numPositions := by
    simp [State.numPositions]
  rw [List.foldl_append]
  exact visit_selects evs f (hnum ▸ hlt) (by rw [visits_sr_length, hnum, hs])

end

/-! ### The bodies of the orchestration commands -/

theorem initAt_eq_visit : initAt = visit visitInit fun _ => Display.initialise := by
  funext s i
  cases hq : s.display i with
  | none => simp [initAt, hq, visit_absent]
  | some q =>
    rw [initAt, walkTo_display, hq, visit_present _ _ hq]
    exact initBody_eq_act ..

theorem updateAt_eq_visit : updateAt = visit updEvents fun _ => Display.powerOn := by
  funext s i
  cases hq : s.display i with
  | none => simp [updateAt, hq, visit_absent]
  | some q =>
    have hwalk : (walkTo i s).display i = some q := hq
    rw [updateAt, hwalk, visit_present _ _ hq]
    exact updBody_eq_act hwalk

theorem flipAt_eq_visit : flipAt = visit updEvents Display.flip := by
  funext s i
  cases hq : s.display i with
  | none => simp [flipAt, hq, visit_absent]
  | some q =>
    have hwalk : (walkTo i s).display i = some q := hq
    rw [flipAt, hwalk, visit_present _ _ hq]
    exact flipClear_updBody_eq_act hwalk

end Sys2Proof.Machine
end

section
/-! PROOF. The invariant of the state (10_state R24, R29, R30, R34, 00_scope R14). A body keeps the
part of it that speaks of the chain and the displays, `State.Sound`; the pointer and the fault
record belong to the step around it. -/

namespace Sys2Proof.Machine

/-! ### What a command that returns leaves unchanged -/

theorem Returns.frame {s u : State} {i : Instr} {st : Status} {v : Option Value}
    (h : Returns s i u st v) : BodyFrame s u := by
  cases h with
  | absent | setpxOutside | getpx | getpxOutside | glyphOutside | tonat | tonatOutside | mkrgb
  | getr | getg | getb => exact .refl s
  | seld | upddAbsent => exact .walkTo _ s
  | selm | sela => exact .walk _ s
  | initall => exact (BodyFrame.emit s _).trans (.foldl .initAt _ _)
  | updall => exact .foldl .updateAt _ s
  | updd => exact .flipAt s _
  | updm => exact .foldl .flipAt _ s
  | init => exact .initBody _ _ s
  | upd => exact .updBody _ _ s
  | pwr => exact (BodyFrame.emit s _).trans (.setOn _ _ _)
  | inv => exact (BodyFrame.emit s _).trans (.setInverted _ _ _)
  | clr | setpx | rect | img | glyph => exact .setFb s _ _

theorem Returns.completed {s u : State} {i : Instr} {st : Status} {v : Option Value}
    (h : Returns s i u st v) : Completed i.len st v s (u.finish i.len st v) :=
  ⟨congrArg (· ++ _) h.frame.results, congrArg (· + _) h.frame.cp, h.frame.fault⟩

theorem State.notReadyAt_eq_false {s : State} {k : Nat} :
    s.notReadyAt k = false ↔ ∀ q, s.display k = some q → q.driver.lifecycle = .ready := by
  cases hq : s.display k with
  | none => simp [State.notReadyAt, hq]
  | some q => simp [State.notReadyAt, hq, Display.isReady]

/-! ### Displays -/

theorem Display.initialise_inv {q : Display} (h : q.Inv) : q.initialise.Inv := by
  obtain ⟨-, hwf, hin⟩ := h
  exact ⟨.inr ⟨rfl, rfl, rfl⟩, hwf, hin⟩

/-- The flag `on` is false only on a Ready display, so the power-on keeps the record's form. -/
theorem driverAfterUpd_inv {d : Driver} (h : d.Inv) : (driverAfterUpd d).Inv := by
  unfold driverAfterUpd
  split
  · next hon =>
    obtain ⟨-, hnone, -⟩ | ⟨hready, -, hinverted⟩ := h
    · simp [hon] at hnone
    · exact .inr ⟨hready, rfl, hinverted⟩
  · exact h

theorem Display.powerOn_inv {q : Display} (h : q.Inv) : q.powerOn.Inv := by
  obtain ⟨hdriver, hwf, hin⟩ := h
  exact ⟨driverAfterUpd_inv hdriver, hwf, hin⟩

theorem Display.setFb_inv {q : Display} (h : q.Inv) {m : Memory}
    (hm : m.wf ∧ m.within (cellCount q.panel)) : Display.Inv { q with fb := m } := by
  obtain ⟨hdriver, -, -⟩ := h
  exact ⟨hdriver, hm⟩

theorem Display.fill_inv {q : Display} (h : q.Inv) (c : Color) :
    Display.Inv { q with fb := q.fb.fill (cellCount q.panel) c } := by
  obtain ⟨-, hwf, hin⟩ := id h
  exact Display.setFb_inv h ⟨Memory.fill_wf hwf _ c, Memory.fill_within hin c⟩

theorem Display.flip_inv {cfg : Cfg} {q : Display} (h : q.Inv) : (q.flip cfg).Inv :=
  Display.fill_inv (Display.powerOn_inv h) cfg.flipClearColor

/-- The record of a Ready display keeps its form when a flag is set. -/
theorem Display.setFlag_inv {q : Display} (h : q.Inv) (hr : q.driver.lifecycle = .ready)
    {on inverted : Option Bool} (hon : q.driver.on.isSome → on.isSome)
    (hinverted : q.driver.inverted.isSome → inverted.isSome) :
    Display.Inv { q with driver := ⟨q.driver.lifecycle, on, inverted⟩ } := by
  obtain ⟨⟨hun, -⟩ | ⟨-, ho, hi⟩, hwf, hin⟩ := h
  · simp [hr] at hun
  · exact ⟨.inr ⟨hr, hon ho, hinverted hi⟩, hwf, hin⟩

/-! ### Chain and displays through a body -/

/-- Outputs that hold a vector of bits are all known. -/
theorem Chain.known_of_out {c : Chain} {t : List Bool} (h : c.out = t.map Level.ofBool) :
    c.known = true := by
  simp [Chain.known, h]

/-- The part of the invariant that a body may change. -/
structure State.Sound (s : State) : Prop where
  chain : s.chain.Inv s.numSlots
  displays : ∀ k q, s.display k = some q → q.Inv

namespace State.Sound

variable {s : State}

theorem act (h : s.Sound) {d : Nat} {f : Display → Display} {evs : List Event}
    (hf : ∀ q, s.display d = some q → q.Inv → (f q).Inv) : (s.act d f evs).Sound := by
  refine ⟨by simpa using h.chain, fun k q hq => ?_⟩
  rw [State.act_display] at hq
  split at hq
  · next hk =>
    subst hk
    obtain ⟨q', hq', rfl⟩ := Option.map_eq_some_iff.mp hq
    exact hf q' hq' (h.displays k q' hq')
  · exact h.displays k q hq

theorem setFb (h : s.Sound) {d : Nat} {q : Display} {m : Memory} (hq : s.display d = some q)
    (hm : q.fb.wf → q.fb.within (cellCount q.panel) → m.wf ∧ m.within (cellCount q.panel)) :
    (s.setFb d m).Sound := by
  rw [setFb_eq_act]
  refine h.act fun q' hq' hinv => ?_
  cases hq.symm.trans hq'
  obtain ⟨-, hwf, hin⟩ := id hinv
  exact Display.setFb_inv hinv (hm hwf hin)

/-- A walk of the chain's length leaves every output known and CLOCK low (44_bus_addressor R201). -/
theorem walk (h : s.Sound) {t : List Bool} (ht : t.length = s.numPositions) : (walk t s).Sound := by
  obtain ⟨hsr, -, -, -⟩ := h.chain
  have hne : t ≠ [] := by
    rintro rfl
    simp [State.numPositions] at ht
  obtain ⟨hout, hclock⟩ := walk_out_of_length hne (hsr.trans ht.symm)
  refine ⟨⟨?_, ?_, ?_, .inl (Chain.known_of_out hout)⟩, h.displays⟩
  · exact (Chain.foldl_apply_sr_length _ _).trans hsr
  · rw [hout, List.length_map, ht]
    rfl
  · rw [hclock]
    decide

theorem walkTo (h : s.Sound) (i : Nat) : (walkTo i s).Sound := h.walk (selVec_length _ _)

theorem visits {evs : Cfg → Display → List Nat → List Event} {f : Cfg → Display → Display}
    (hf : ∀ cfg q, q.Inv → (f cfg q).Inv) (l : List Nat) (h : s.Sound) :
    (l.foldl (visit evs f) s).Sound := by
  induction l generalizing s with
  | nil => exact h
  | cons i l ih => exact ih ((h.walkTo i).act fun q _ => hf s.cfg q)

end State.Sound

theorem Returns.sound {s u : State} {i : Instr} {st : Status} {v : Option Value}
    (h : Returns s i u st v) (hs : s.Sound) : u.Sound := by
  cases h with
  | absent | setpxOutside | getpx | getpxOutside | glyphOutside | tonat | tonatOutside | mkrgb
  | getr | getg | getb => exact hs
  | seld | upddAbsent => exact hs.walkTo _
  | selm => exact hs.walk (maskVec_length _ _)
  | sela => exact hs.walk (allVec_length _)
  | initall =>
    rw [State.emit_of_quiet _ (pulse_quiet _), initAt_eq_visit]
    exact .visits (fun _ _ => Display.initialise_inv) _ ⟨hs.chain, hs.displays⟩
  | updall =>
    rw [updateAt_eq_visit]
    exact .visits (fun _ _ => Display.powerOn_inv) _ hs
  | updd =>
    rw [flipAt_eq_visit]
    exact .visits (fun _ _ => Display.flip_inv) [_] hs
  | updm =>
    rw [flipAt_eq_visit]
    exact .visits (fun _ _ => Display.flip_inv) _ hs
  | init =>
    rw [initBody_eq_act]
    exact hs.act fun _ _ => Display.initialise_inv
  | upd hq =>
    rw [updBody_eq_act hq]
    exact hs.act fun _ _ => Display.powerOn_inv
  | pwr hq hr =>
    rw [emit_setOn_eq_act _ _ _ (sendCmd_quiet _ _ _)]
    refine hs.act fun q' hq' hinv => ?_
    cases hq.symm.trans hq'
    exact Display.setFlag_inv hinv hr (fun _ => rfl) id
  | inv hq hr =>
    rw [emit_setInverted_eq_act _ _ _ (sendCmd_quiet _ _ _)]
    refine hs.act fun q' hq' hinv => ?_
    cases hq.symm.trans hq'
    exact Display.setFlag_inv hinv hr id fun _ => rfl
  | clr hq => exact hs.setFb hq fun hwf hin => ⟨Memory.fill_wf hwf _ _, Memory.fill_within hin _⟩
  | setpx hq hr | glyph hq hr =>
    exact hs.setFb hq fun hwf hin =>
      ⟨Memory.write_wf hwf _ _, Memory.write_within hin (nativeIndex_lt hr) _⟩
  | rect hq => exact hs.setFb hq (drawRect_keeps _ _ _ _ _ _ _)
  | img hq => exact hs.setFb hq (drawImage_keeps _ _ _ _ _)

/-- Every command that goes on, by a fault or a return, keeps chain and displays sound. -/
theorem exec_sound {i : Instr} {s t : State} (hs : s.Sound) (h : exec i s = .next t) : t.Sound := by
  obtain ⟨code, -, rfl⟩ | ⟨u, st, v, hu, rfl⟩ := exec_cases h
  · exact ⟨hs.chain, hs.displays⟩
  · exact ⟨(hu.sound hs).chain, (hu.sound hs).displays⟩

theorem step_sound {s t : State} (hs : s.Sound) (h : step s = .next t) : t.Sound := by
  obtain ⟨-, ⟨-, rfl⟩ | ⟨len, -, rfl⟩ | ⟨i, -, hexec⟩⟩ := step_cases h
  · exact ⟨hs.chain, hs.displays⟩
  · exact ⟨hs.chain, hs.displays⟩
  · exact exec_sound hs hexec

/-- Settles O58: the body keeps chain and displays sound; a fault records `cp` and leaves it, and a
return adds the length of a command that lies in the stream. -/
theorem everyStepKeepsTheInvariant : Obligations.EveryStepKeepsTheInvariant := by
  intro s t hs h
  obtain ⟨hchain, hdisplays⟩ := step_sound ⟨hs.chain, hs.displays⟩ h
  obtain ⟨hnone, ⟨code, len, rfl⟩ | ⟨i, u, st, v, hi, hu, rfl⟩⟩ := step_next_cases h
  · refine ⟨hchain, hdisplays, hs.pointer, fun r hr => ?_⟩
    cases hr
    rfl
  · obtain ⟨-, hstream, -, -⟩ := hu.params
    obtain ⟨-, hfits⟩ := decoded_in_stream hi
    refine ⟨hchain, hdisplays, ?_, fun r hr => ?_⟩
    · rwa [State.finish_cp, State.finish_stream, hu.cp, hstream]
    · rw [State.finish_fault, hu.fault, hnone] at hr
      cases hr

/-! ### Reset -/

theorem resetWith_display (cfg : Cfg) (panels : List (Option Panel)) (fbInit : Nat → Memory)
    (stream : List Word) (k : Nat) :
    (State.resetWith cfg panels fbInit stream).display k =
      (panels.getD k none).map fun p => ⟨p, Driver.atReset, fbInit k⟩ := by
  simp only [State.display, State.resetWith, slotsAtReset, List.getElem?_mapIdx,
    List.getD_eq_getElem?_getD]
  cases panels[k]? <;> rfl

@[simp] theorem resetWith_numSlots (cfg : Cfg) (panels : List (Option Panel))
    (fbInit : Nat → Memory) (stream : List Word) :
    (State.resetWith cfg panels fbInit stream).numSlots = panels.length := by
  simp [State.numSlots, State.resetWith, slotsAtReset]

/-- Settles O59: at reset every chain level is unknown and every present display has unset flags and
the given contents. -/
theorem resetSatisfiesTheInvariant : Obligations.ResetSatisfiesTheInvariant := by
  intro cfg panels fbInit stream hfb
  refine ⟨?_, fun k q hq => ?_, Nat.zero_le _, fun r hr => ?_⟩
  · rw [resetWith_numSlots]
    exact ⟨by simp [State.resetWith, Chain.atReset], by simp [State.resetWith, Chain.atReset],
      by simp [State.resetWith, Chain.atReset],
      .inr fun o ho => List.eq_of_mem_replicate ho⟩
  · rw [resetWith_display] at hq
    obtain ⟨p, hp, rfl⟩ := Option.map_eq_some_iff.mp hq
    refine ⟨.inl ⟨rfl, rfl, rfl⟩, hfb k p ?_⟩
    rw [List.getD_eq_getElem?_getD] at hp
    cases hk : panels[k]? <;> simp_all
  · simp only [State.resetWith] at hr
    split at hr
    · cases hr
    · cases hr
      rfl

/-- Settles O60: field by field; a failed HAL initialisation is a fault record, so the step
stops. -/
theorem resetValues : Obligations.ResetValues := by
  intro cfg panels fbInit stream s
  refine ⟨rfl, rfl, rfl, rfl, rfl, rfl, resetWith_numSlots .., rfl, resetWith_display _ _ _ _,
    ?_, ?_⟩
  · exact fun hok => if_pos hok
  · intro hok
    have hfault : s.fault = some ⟨.halInitFailure, 0, []⟩ := if_neg (by simp [hok])
    exact ⟨hfault, step_faulted hfault⟩

end Sys2Proof.Machine
end

section
/-! PROOF. Facts about every command and every step, each read off the relations `Faults` and
`Returns`: outcomes (60_exceptions R230-R236), which command takes which fault and reports which
status, and the trace and the results. -/

namespace Sys2Proof.Machine

/-! ### Outcomes -/

/-- Settles O50: a command takes a fault, or runs a body and returns. -/
theorem everyCommandCompletesOrFaults : Obligations.EveryCommandCompletesOrFaults := by
  intro i s
  obtain ⟨code, hf⟩ | ⟨u, st, v, hu⟩ := ends s i
  · exact ⟨_, exec_of_faults hf, .inr ⟨code, faulted_takesFault code i.len s⟩⟩
  · exact ⟨_, exec_of_returns hu, .inl ⟨st, v, hu.completed⟩⟩

/-- Settles O51: the record is that of the fault taken, and each fault names its commands. -/
theorem faultsComeOnlyFromTheirCommands : Obligations.FaultsComeOnlyFromTheirCommands := by
  intro i s t r h hs ht
  obtain ⟨code, hf, rfl⟩ | ⟨u, st, v, hu, rfl⟩ := exec_cases h
  · cases ht
    cases hf with
    | operand hd => exact .inl (by simp [hd])
    | seldIndex | upddIndex | selmMask | updmMask => simp
    | updNotReady | pwrNotReady | invNotReady | updallNotReady | upddNotReady | updmNotReady => simp
    | initUnknown | updUnknown | pwrUnknown | invUnknown => simp
    | imgMissing => simp
  · rw [State.finish_fault, hu.frame.fault, hs] at ht
    cases ht

/-- Settles O52: a return appends the one record of its status, and OUT_OF_BOUNDS and ABSENT are
returned by the bodies that leave every slot as it is. -/
theorem statusesComeOnlyFromTheirCommands : Obligations.StatusesComeOnlyFromTheirCommands := by
  intro i s t st v h hresults
  obtain ⟨code, -, rfl⟩ | ⟨u, st', v', hu, rfl⟩ := exec_cases h
  · simp at hresults
  · rw [State.finish_results, hu.frame.results] at hresults
    obtain ⟨rfl, rfl⟩ : st' = st ∧ v' = v := by simpa using hresults
    refine ⟨?_, ?_⟩
    · rintro rfl
      cases hu with
      | setpxOutside | getpxOutside | glyphOutside | tonatOutside => simp
    · rintro rfl
      cases hu with
      | absent hd => exact ⟨rfl, rfl, .inl (by simp [hd])⟩
      | upddAbsent => exact ⟨rfl, rfl, .inr ⟨_, rfl⟩⟩

/-! ### Steps -/

theorem step_instr {s : State} {i : Instr} (h : s.fault = none) (hf : fetch s = .instr i) :
    step s = exec i s := by
  simp [step, h, hf]

/-- Settles O5: with no fault recorded, the step dispatches on the decoding alone. -/
theorem stepRunsDecodedCommand : Obligations.StepRunsDecodedCommand :=
  fun _ _ hnone hdecode => step_instr hnone hdecode

/-- Only the empty list of words is the end of the stream to the decoder. -/
theorem decode_cons_ne_ended (h : Word) (rest : List Word) : decode (h :: rest) ≠ .ended := by
  by_cases hill : IllegalHeader h
  · simp [decode_of_illegal rest hill]
  · rcases Nat.lt_or_ge (rest.length + 1) (tableLen h) with hlen | hlen
    · simp [decode_of_truncated hill hlen]
    · obtain ⟨i, hi, -⟩ := decode_of_complete hill hlen
      simp [hi]

/-- Settles O7: a recorded fault stops the step; without one the end of the stream does, and any
word at `cp` is illegal, truncated or the header of a command, each of which goes on. -/
theorem stepStopsExactlyWhenFaultedOrEnded : Obligations.StepStopsExactlyWhenFaultedOrEnded := by
  refine fun s => ⟨fun r hr => step_faulted hr, fun hnone hend => ?_, fun hnone hlt => ?_⟩
  · refine step_ended hnone ?_
    rw [fetch, List.drop_eq_nil_of_le hend, decode_nil]
  · cases hf : fetch s with
    | ended =>
      rw [fetch, List.drop_eq_getElem_cons hlt] at hf
      exact absurd hf (decode_cons_ne_ended _ _)
    | illegal => exact ⟨_, step_illegal hnone hf⟩
    | truncated len => exact ⟨_, step_truncated hnone hf⟩
    | instr i =>
      obtain ⟨t, ht, -⟩ := everyCommandCompletesOrFaults i s
      exact ⟨t, (step_instr hnone hf).trans ht⟩

/-- Settles O55: a fault appends nothing; a body only appends to the trace, and a return appends one
result. -/
theorem traceAndResultsOnlyGrow : Obligations.TraceAndResultsOnlyGrow := by
  intro s t h
  obtain ⟨-, ⟨code, len, rfl⟩ | ⟨i, u, st, v, -, hu, rfl⟩⟩ := step_next_cases h
  · exact ⟨⟨[], (List.append_nil _).symm⟩, .inl rfl⟩
  · obtain ⟨evs, hevs⟩ := hu.trace
    exact ⟨⟨evs, hevs.symm⟩, .inr ⟨_, congrArg (· ++ _) hu.results⟩⟩

/-- Settles O20: an unknown output fails the check that precedes every SPI byte; reset makes every
output unknown. -/
theorem spiByteWithUnknownChainFaults : Obligations.SpiByteWithUnknownChainFaults := by
  refine ⟨fun s d q hq hout => ?_, fun _ _ _ _ => rfl⟩
  have hc : s.chain.known = false := by
    rw [Chain.known, List.all_eq_false]
    exact ⟨_, hout, by decide⟩
  exact ⟨exec_of_faults (.initUnknown hq hc), fun hr on => ⟨exec_of_faults (.updUnknown hq hr hc),
    exec_of_faults (.pwrUnknown hq hr hc), exec_of_faults (.invUnknown hq hr hc)⟩⟩

end Sys2Proof.Machine
end

section
/-! PROOF. The driver records (43_panel_driver R183). Every body changes the display of a slot by
one function, and every such function changes the record as the lifecycle table allows. -/

namespace Sys2Proof.Machine

/-- What command `i` may make of the record `d` of slot `k`. -/
def DriverChange (i : Instr) (k : Nat) (d d' : Driver) : Prop :=
  d' = d ∨
    ((i = .init k ∨ i = .initall) ∧ d' = ⟨.ready, some true, some false⟩) ∨
    (d.lifecycle = .ready ∧
      (((i = .upd k ∨ i = .updall ∨ i = .updd k ∨
          ∃ m : Word, i = .updm m ∧ m.getLsbD k = true) ∧ d' = { d with on := some true }) ∨
        (∃ on, i = .pwr k on ∧ d' = { d with on := some on }) ∨
        ∃ on, i = .inv k on ∧ d' = { d with inverted := some on }))

/-- UPD's record is the old one, or that of a Ready display with `on` set. -/
theorem DriverChange.afterUpd {i : Instr} {k : Nat} {d : Driver} (hr : d.lifecycle = .ready)
    (hi : i = .upd k ∨ i = .updall ∨ i = .updd k ∨ ∃ m : Word, i = .updm m ∧ m.getLsbD k = true) :
    DriverChange i k d (driverAfterUpd d) := by
  unfold driverAfterUpd
  split
  · exact .inr (.inr ⟨hr, .inl ⟨hi, rfl⟩⟩)
  · exact .inl rfl

/-- Each display of `u` is that of `s` with a record that `i` may make of it. -/
def DriverChanges (i : Instr) (s u : State) : Prop :=
  ∀ k, ∃ f : Display → Display, u.display k = (s.display k).map f ∧
    ∀ q, s.display k = some q → DriverChange i k q.driver (f q).driver

namespace DriverChanges

variable {i : Instr} {s : State}

theorem of_display {u : State} (h : ∀ k, u.display k = s.display k) : DriverChanges i s u :=
  fun k => ⟨id, by simp [h k], fun _ _ => .inl rfl⟩

theorem act {d : Nat} {f : Display → Display} {evs : List Event}
    (hf : ∀ q, s.display d = some q → DriverChange i d q.driver (f q).driver) :
    DriverChanges i s (s.act d f evs) := by
  intro k
  by_cases hk : k = d
  · subst hk
    exact ⟨f, by simp [State.act_display], hf⟩
  · exact ⟨id, by simp [State.act_display, hk], fun _ _ => .inl rfl⟩

theorem setFb (d : Nat) (m : Memory) : DriverChanges i s (s.setFb d m) := by
  rw [setFb_eq_act]
  exact act fun _ _ => .inl rfl

theorem visits {evs : Cfg → Display → List Nat → List Event} {f : Cfg → Display → Display}
    {l : List Nat} (hl : l.Nodup)
    (hf : ∀ k ∈ l, ∀ q, s.display k = some q → DriverChange i k q.driver (f s.cfg q).driver) :
    DriverChanges i s (l.foldl (visit evs f) s) := by
  intro k
  by_cases hk : k ∈ l
  · exact ⟨f s.cfg, by simp [visits_display evs f hl, hk], hf k hk⟩
  · exact ⟨id, by simp [visits_display evs f hl, hk], fun _ _ => .inl rfl⟩

end DriverChanges

theorem maskedSlots_nodup (mask : Word) (n : Nat) : (maskedSlots mask n).Nodup :=
  List.nodup_range.filter _

theorem Returns.driverChanges {s u : State} {i : Instr} {st : Status} {v : Option Value}
    (h : Returns s i u st v) : DriverChanges i s u := by
  cases h with
  | absent | setpxOutside | getpx | getpxOutside | glyphOutside | tonat | tonatOutside | mkrgb
  | getr | getg | getb | seld | selm | sela | upddAbsent => exact .of_display fun _ => rfl
  | initall =>
    rw [State.emit_of_quiet _ (pulse_quiet _), initAt_eq_visit]
    exact .visits List.nodup_range fun _ _ _ _ => .inr (.inl ⟨.inr rfl, rfl⟩)
  | updall hr =>
    rw [updateAt_eq_visit]
    exact .visits List.nodup_range fun k hk q hq => .afterUpd
      (State.notReadyAt_eq_false.mp (hr k (List.mem_range.mp hk)) q hq) (.inr (.inl rfl))
  | updd hq hr =>
    rw [flipAt_eq_visit]
    refine .visits (l := [_]) (List.nodup_singleton _) fun k hk q' hq' => ?_
    cases List.mem_singleton.mp hk
    cases hq.symm.trans hq'
    exact .afterUpd hr (.inr (.inr (.inl rfl)))
  | updm hm hr =>
    rw [flipAt_eq_visit]
    exact .visits (maskedSlots_nodup _ _) fun k hk q hq => .afterUpd
      (State.notReadyAt_eq_false.mp (hr k hk) q hq)
      (.inr (.inr (.inr ⟨_, rfl, (mem_maskedSlots.mp hk).2⟩)))
  | init =>
    rw [initBody_eq_act]
    exact .act fun _ _ => .inr (.inl ⟨.inl rfl, rfl⟩)
  | upd hq hr =>
    rw [updBody_eq_act hq]
    refine .act fun q' hq' => ?_
    cases hq.symm.trans hq'
    exact .afterUpd hr (.inl rfl)
  | pwr hq hr =>
    rw [emit_setOn_eq_act _ _ _ (sendCmd_quiet _ _ _)]
    refine .act fun q' hq' => ?_
    cases hq.symm.trans hq'
    exact .inr (.inr ⟨hr, .inr (.inl ⟨_, rfl, rfl⟩)⟩)
  | inv hq hr =>
    rw [emit_setInverted_eq_act _ _ _ (sendCmd_quiet _ _ _)]
    refine .act fun q' hq' => ?_
    cases hq.symm.trans hq'
    exact .inr (.inr ⟨hr, .inr (.inr ⟨_, rfl, rfl⟩)⟩)
  | clr | setpx | rect | img | glyph => exact .setFb _ _

/-- Settles O57: a fault and a return keep every record, and a body changes it as the table
allows. -/
theorem driverRecordsChangeOnlyByTheirCommands :
    Obligations.DriverRecordsChangeOnlyByTheirCommands := by
  intro i s t k h
  have hchanges : DriverChanges i s t := by
    obtain ⟨code, -, rfl⟩ | ⟨u, st, v, hu, rfl⟩ := exec_cases h
    · exact .of_display fun _ => rfl
    · exact hu.driverChanges
  obtain ⟨f, hf, hchange⟩ := hchanges k
  unfold State.driver
  rw [hf]
  cases hq : s.display k with
  | none => rfl
  | some q => exact ⟨_, rfl, hchange q hq⟩

end Sys2Proof.Machine
end

section
/-! PROOF. The canvas and transform commands keep to the frame buffer of their slot (42_canvas
header, 41_transform R125): they leave the state as it was, or set that buffer, and look at no
bus. -/

namespace Sys2Proof.Machine

theorem Returns.draws {s u : State} {i : Instr} {d : Nat} {st : Status} {v : Option Value}
    (h : Returns s i u st v) (hi : drawingOperand i = some d) :
    u = s ∨ ∃ m, u = s.setFb d m := by
  cases h with
  | absent | setpxOutside | getpx | getpxOutside | glyphOutside | tonat | tonatOutside =>
    exact .inl rfl
  | clr | setpx | rect | img | glyph =>
    cases hi
    exact .inr ⟨_, rfl⟩
  | mkrgb | getr | getg | getb | seld | selm | sela | initall | updall | upddAbsent | updd | updm
  | init | upd | pwr | inv => cases hi

theorem setFb_sameCellsBut (s : State) (d : Nat) (m : Memory) : SameCellsBut d s (s.setFb d m) :=
  fun k idx hk => by rw [State.setFb_cell, if_neg hk]

/-- Settles O30: fault entry and return touch neither bus nor slots, and a body sets one frame
buffer. -/
theorem drawingCommandsKeepBusAndDrivers : Obligations.DrawingCommandsKeepBusAndDrivers := by
  intro i d s t hi h
  obtain ⟨code, -, rfl⟩ | ⟨u, st, v, hu, rfl⟩ := exec_cases h
  · exact ⟨⟨rfl, rfl⟩, fun _ => rfl, fun _ _ _ => rfl, .refl s⟩
  · obtain rfl | ⟨m, rfl⟩ := hu.draws hi
    · exact ⟨⟨rfl, rfl⟩, fun _ => rfl, fun _ _ _ => rfl, .refl u⟩
    · exact ⟨⟨rfl, rfl⟩, State.setFb_driver s d m, setFb_sameCellsBut s d m,
        (BodyFrame.setFb s d m).params⟩

/-- The state with another chain and trace. -/
def State.onBus (s : State) (c : Chain) (tr : List Event) : State :=
  { s with chain := c, trace := tr }

theorem Faults.onBus {s : State} {i : Instr} {code : FaultCode} (h : Faults s i code) {d : Nat}
    (hi : drawingOperand i = some d) (c : Chain) (tr : List Event) :
    Faults (s.onBus c tr) i code := by
  cases h with
  | operand h hd => exact .operand h hd
  | imgMissing hq hid => exact .imgMissing hq hid
  | seldIndex | upddIndex | selmMask | updmMask | updNotReady | pwrNotReady | invNotReady
  | updallNotReady | upddNotReady | updmNotReady | initUnknown | updUnknown | pwrUnknown
  | invUnknown => cases hi

theorem Returns.onBus {s u : State} {i : Instr} {st : Status} {v : Option Value}
    (h : Returns s i u st v) {d : Nat} (hi : drawingOperand i = some d) (c : Chain)
    (tr : List Event) : Returns (s.onBus c tr) i (u.onBus c tr) st v := by
  cases h with
  | absent h hd hq => exact .absent h hd hq
  | clr hq => exact .clr hq
  | setpx hq hr => exact .setpx hq hr
  | setpxOutside hq hr => exact .setpxOutside hq hr
  | getpx hq hr => exact .getpx hq hr
  | getpxOutside hq hr => exact .getpxOutside hq hr
  | rect hq => exact .rect hq
  | img hq hid => exact .img hq hid
  | glyph hq hr => exact .glyph hq hr
  | glyphOutside hq hr => exact .glyphOutside hq hr
  | tonat hq hr => exact .tonat hq hr
  | tonatOutside hq hr => exact .tonatOutside hq hr
  | mkrgb | getr | getg | getb | seld | selm | sela | initall | updall | upddAbsent | updd | updm
  | init | upd | pwr | inv => cases hi

/-- Settles O31: the conditions of the drawing commands and their bodies are the same on another
bus. -/
theorem drawingCommandsIgnoreTheBus : Obligations.DrawingCommandsIgnoreTheBus := by
  intro i d s t c tr hi h
  obtain ⟨code, hf, rfl⟩ | ⟨u, st, v, hu, rfl⟩ := exec_cases h
  · exact exec_of_faults (hf.onBus hi c tr)
  · exact exec_of_returns (hu.onBus hi c tr)

end Sys2Proof.Machine
end

section
/-! PROOF. The color codec (40_codec R100-R106), the chroma-key band (42_canvas R146) and the
scan-direction byte (30_encoding R87). A Color is three fields side by side: every law is a fact
about one field, and the forms with masks and shifts are compared bit by bit. -/

namespace Sys2Proof.Machine

/-! ### The fields of a Color -/

theorem redField_makeRGB (r g b : Byte) : (makeRGB r g b).extractLsb' 11 5 = r.extractLsb' 3 5 := by
  unfold makeRGB
  rw [extract_append_high _ _ _ _ (by omega), extract_append_high _ _ _ _ (by omega)]
  exact BitVec.extractLsb'_eq_self

theorem greenField_makeRGB (r g b : Byte) :
    (makeRGB r g b).extractLsb' 5 6 = g.extractLsb' 2 6 := by
  unfold makeRGB
  rw [extract_append_high _ _ _ _ (by omega), extract_append_low _ _ _ _ (by omega)]
  exact BitVec.extractLsb'_eq_self

theorem blueField_makeRGB (r g b : Byte) : (makeRGB r g b).extractLsb' 0 5 = b.extractLsb' 3 5 := by
  unfold makeRGB
  rw [extract_append_low _ _ _ _ (by omega)]
  exact BitVec.extractLsb'_eq_self

/-- Settles O8: the fields stand where `makeRGB` appends them; the shifted sum agrees bit by bit. -/
theorem makeRgbPacksTruncatedChannels : Obligations.MakeRgbPacksTruncatedChannels := by
  refine fun r g b =>
    ⟨?_, redField_makeRGB r g b, greenField_makeRGB r g b, blueField_makeRGB r g b⟩
  apply BitVec.eq_of_getLsbD_eq
  intro i hi
  rw [makeRGB, BitVec.getLsbD_append, BitVec.getLsbD_append]
  interval_cases i <;> simp

/-- Settles O9: each channel is its field above zero bits; the shifted form agrees bit by bit. -/
theorem channelsAreZeroFilledFields : Obligations.ChannelsAreZeroFilledFields := by
  refine fun c => ⟨⟨rfl, ?_⟩, ⟨rfl, ?_⟩, ⟨rfl, ?_⟩⟩ <;> apply BitVec.eq_of_getLsbD_eq <;> intro i hi
  · rw [getR, BitVec.getLsbD_append]
    interval_cases i <;> simp
  · rw [getG, BitVec.getLsbD_append]
    interval_cases i <;> simp
  · rw [getB, BitVec.getLsbD_append]
    interval_cases i <;> simp

/-! ### The codec laws -/

/-- A byte with its low bits cleared, as a field above zero bits: a check of the 256 bytes. -/
theorem clearLow3_eq (v : Byte) : v.extractLsb' 3 5 ++ 0#3 = v &&& 0xF8 := by
  revert v
  decide

theorem clearLow2_eq (v : Byte) : v.extractLsb' 2 6 ++ 0#2 = v &&& 0xFC := by
  revert v
  decide

theorem getR_makeRGB (r g b : Byte) : getR (makeRGB r g b) = r &&& 0xF8 := by
  rw [getR, redField_makeRGB, clearLow3_eq]

theorem getG_makeRGB (r g b : Byte) : getG (makeRGB r g b) = g &&& 0xFC := by
  rw [getG, greenField_makeRGB, clearLow2_eq]

theorem getB_makeRGB (r g b : Byte) : getB (makeRGB r g b) = b &&& 0xF8 := by
  rw [getB, blueField_makeRGB, clearLow3_eq]

theorem field_getR (c : Color) : (getR c).extractLsb' 3 5 = c.extractLsb' 11 5 := by
  rw [getR, extract_append_high _ _ _ _ (by omega)]
  exact BitVec.extractLsb'_eq_self

theorem field_getG (c : Color) : (getG c).extractLsb' 2 6 = c.extractLsb' 5 6 := by
  rw [getG, extract_append_high _ _ _ _ (by omega)]
  exact BitVec.extractLsb'_eq_self

theorem field_getB (c : Color) : (getB c).extractLsb' 3 5 = c.extractLsb' 0 5 := by
  rw [getB, extract_append_high _ _ _ _ (by omega)]
  exact BitVec.extractLsb'_eq_self

/-- A Color is its three fields side by side. -/
theorem makeRGB_channels (c : Color) : makeRGB (getR c) (getG c) (getB c) = c := by
  have hhigh : c.extractLsb' 11 5 ++ c.extractLsb' 5 6 = c.extractLsb' 5 11 :=
    BitVec.extractLsb'_append_extractLsb'_eq_extractLsb' rfl
  rw [makeRGB, field_getR, field_getG, field_getB, hhigh]
  exact BitVec.extractLsb'_append_extractLsb' (w := 11) (len := 5) (x := c)

/-- The low bits of a byte are 0 exactly where clearing them changes nothing. -/
theorem low3_eq_zero {v : Byte} : v &&& 0x07 = 0 ↔ v &&& 0xF8 = v := by
  revert v
  decide

theorem low2_eq_zero {v : Byte} : v &&& 0x03 = 0 ↔ v &&& 0xFC = v := by
  revert v
  decide

/-- Settles O10: the channels of a Color are the quantised triple it is made of, and no other is. -/
theorem codecLawsHold : Obligations.CodecLawsHold := by
  refine ⟨fun r g b => ⟨getR_makeRGB r g b, getG_makeRGB r g b, getB_makeRGB r g b⟩,
    makeRGB_channels, ?_, fun c => ⟨getR c, getG c, getB c, ⟨?_, ?_, ?_, makeRGB_channels c⟩, ?_⟩⟩
  · intro r g b c c'
    have hsame : c' = c := makeRGB_channels c
    exact ⟨congrArg getR hsame, congrArg getG hsame, congrArg getB hsame⟩
  · rw [low3_eq_zero, ← getR_makeRGB _ (getG c) (getB c), makeRGB_channels]
  · rw [low2_eq_zero, ← getG_makeRGB (getR c) _ (getB c), makeRGB_channels]
  · rw [low3_eq_zero, ← getB_makeRGB (getR c) (getG c), makeRGB_channels]
  · rintro r g b hr hg hb rfl
    rw [getR_makeRGB, getG_makeRGB, getB_makeRGB]
    exact ⟨(low3_eq_zero.mp hr).symm, (low2_eq_zero.mp hg).symm, (low3_eq_zero.mp hb).symm⟩

/-- Settles O11: the codec commands have no body. -/
theorem codecCommandsReturnTheirValue : Obligations.CodecCommandsReturnTheirValue :=
  fun _ => ⟨fun _ _ _ => exec_of_returns .mkrgb, fun _ => exec_of_returns .getr,
    fun _ => exec_of_returns .getg, fun _ => exec_of_returns .getb⟩

/-- Zero bits below a field multiply it. -/
theorem toNat_append_zeros {n : Nat} (field : BitVec n) (k : Nat) :
    (field ++ 0#k).toNat = field.toNat * 2 ^ k := by
  simp [BitVec.toNat_append, Nat.shiftLeft_eq]

/-- Settles O12: a channel is its field times 8 or 4, so the band's bounds are bounds of the
fields. -/
theorem chromaKeyBandInFieldTerms : Obligations.ChromaKeyBandInFieldTerms := by
  refine ⟨fun c => ?_, by decide⟩
  have hr : (getR c).toNat = (c.extractLsb' 11 5).toNat * 2 ^ 3 := toNat_append_zeros _ 3
  have hg : (getG c).toNat = (c.extractLsb' 5 6).toNat * 2 ^ 2 := toNat_append_zeros _ 2
  have hb : (getB c).toNat = (c.extractLsb' 0 5).toNat * 2 ^ 3 := toNat_append_zeros _ 3
  rw [transparent, decide_eq_true_iff, hr, hg, hb]
  omega

/-! ### The scan-direction byte -/

/-- The byte's fields side by side are their shifted sum: a check of the 16 values. -/
theorem madctl_fields : ∀ (scan : BitVec 2) (swap bgr : Bool),
    scan ++ BitVec.ofBool swap ++ 0#1 ++ BitVec.ofBool bgr ++ 0#3 =
      (scan.setWidth 8 <<< 6) ||| ((if swap then 1#8 else 0#8) <<< 5) |||
        ((if bgr then 1#8 else 0#8) <<< 3) := by
  decide

/-- Settles O38: whatever the scan-order table holds for the panel's orientation. -/
theorem madctlByteLayout : Obligations.MadctlByteLayout :=
  fun cfg p => madctl_fields (cfg.scanOrderOf p.variant p.rotation p.mirror).scan _ p.bgr

/-! ### The edge rule -/

/-- Settles O39: a rise from a known 0 is `Chain.rise`; any other event on a line leaves stages and
outputs. -/
theorem clockRiseLatchesAndShifts : Obligations.ClockRiseLatchesAndShifts := by
  refine fun c b => ⟨fun hlow => ?_, fun hnot => ?_, ⟨rfl, rfl⟩, ⟨rfl, rfl⟩⟩
  · rw [Chain.apply_clock, Chain.driveClock_rise c hlow]
    refine ⟨rfl, fun k hk hlen => ?_, fun hlen => ?_, Chain.rise_sr_length c⟩
    · obtain ⟨k, rfl⟩ := Nat.exists_eq_add_of_le' hk
      simp [Chain.rise, hlen]
    · simp [Chain.rise, hlen]
  · rw [Chain.apply_clock, Chain.driveClock_no_edge c hnot]
    exact ⟨rfl, rfl⟩

end Sys2Proof.Machine
end

section
/-! PROOF. The coordinate transform (41_transform R120-R125). Mirror and rotation each have an
inverse on all integers, the grids are taken to each other, and a cell index is the native
coordinate in base `pixWidth`. -/

namespace Sys2Proof.Machine

/-! ### The inverse -/

theorem mir_mir (m : Mirror) (pw ph X Y : Int) :
    mir m pw ph (mir m pw ph X Y).1 (mir m pw ph X Y).2 = (X, Y) := by
  cases m <;> ext <;> simp only [mir] <;> omega

theorem unrot_rot (r : Rotation) (pw ph x y : Int) :
    unrot r pw ph (rot r pw ph x y).1 (rot r pw ph x y).2 = (x, y) := by
  cases r <;> ext <;> simp only [rot, unrot] <;> omega

theorem rot_unrot (r : Rotation) (pw ph X Y : Int) :
    rot r pw ph (unrot r pw ph X Y).1 (unrot r pw ph X Y).2 = (X, Y) := by
  cases r <;> ext <;> simp only [rot, unrot] <;> omega

theorem toLogical_toNative (r : Rotation) (m : Mirror) (pw ph x y : Int) :
    toLogical r m pw ph (toNative r m pw ph x y).1 (toNative r m pw ph x y).2 = (x, y) := by
  unfold toLogical toNative
  rw [mir_mir, unrot_rot]

theorem toNative_toLogical (r : Rotation) (m : Mirror) (pw ph X Y : Int) :
    toNative r m pw ph (toLogical r m pw ph X Y).1 (toLogical r m pw ph X Y).2 = (X, Y) := by
  unfold toLogical toNative
  rw [rot_unrot, mir_mir]

/-- The logical pixel of a native coordinate of panel `p`. -/
def logicalOf (p : Panel) (X Y : Int) : Int × Int :=
  toLogical p.rotation p.mirror p.pixWidth p.pixHeight X Y

theorem logicalOf_nativeOf (p : Panel) (x y : Int) :
    logicalOf p (nativeOf p x y).1 (nativeOf p x y).2 = (x, y) :=
  toLogical_toNative ..

theorem nativeOf_logicalOf (p : Panel) (X Y : Int) :
    nativeOf p (logicalOf p X Y).1 (logicalOf p X Y).2 = (X, Y) :=
  toNative_toLogical ..

theorem unrot_inLogical {p : Panel} {X Y : Int} (h : inNative p X Y) :
    inLogical p (unrot p.rotation p.pixWidth p.pixHeight X Y).1
      (unrot p.rotation p.pixWidth p.pixHeight X Y).2 := by
  unfold inLogical logicalWidth logicalHeight unrot
  cases p.rotation <;> dsimp only <;> omega

theorem logicalOf_inLogical {p : Panel} {X Y : Int} (h : inNative p X Y) :
    inLogical p (logicalOf p X Y).1 (logicalOf p X Y).2 :=
  unrot_inLogical (mir_inNative p.mirror h)

/-- Two logical pixels with one native coordinate are one pixel. -/
theorem nativeOf_injective {p : Panel} {x y x' y' : Int} (h : nativeOf p x y = nativeOf p x' y') :
    x = x' ∧ y = y' := by
  have hback := congrArg (fun XY : Int × Int => logicalOf p XY.1 XY.2) h
  simpa [logicalOf_nativeOf] using hback

/-- Settles O13: `toLogical` gives the pre-image, and no other pixel has the same native
coordinate. -/
theorem transformIsBijectionOfGrids : Obligations.TransformIsBijectionOfGrids := by
  refine ⟨fun p => ⟨fun x y h => nativeOf_inNative h, fun X Y h => ?_⟩,
    fun r m pw ph x y => ⟨toLogical_toNative .., toNative_toLogical ..⟩⟩
  refine ⟨_, _, ⟨logicalOf_inLogical h, nativeOf_logicalOf p X Y⟩, fun x' y' _ h' => ?_⟩
  exact nativeOf_injective (h'.trans (nativeOf_logicalOf p X Y).symm)

/-! ### Cell indices -/

/-- A cell index in base `pixWidth` is its native coordinate. -/
theorem index_mod_div {p : Panel} {X Y : Int} (h : inNative p X Y) :
    (Y * p.pixWidth + X).toNat % p.pixWidth = X.toNat ∧
      (Y * p.pixWidth + X).toNat / p.pixWidth = Y.toNat := by
  obtain ⟨hX, hX', hY, hY'⟩ := h
  obtain ⟨a, rfl⟩ := Int.eq_ofNat_of_zero_le hX
  obtain ⟨b, rfl⟩ := Int.eq_ofNat_of_zero_le hY
  have ha : a < p.pixWidth := by omega
  have hindex : ((b : Int) * p.pixWidth + a).toNat = a + p.pixWidth * b := by
    rw [Nat.add_comm, Nat.mul_comm]
    exact Int.toNat_natCast (b * p.pixWidth + a)
  rw [hindex, Nat.add_mul_mod_self_left, Nat.mod_eq_of_lt ha,
    Nat.add_mul_div_left _ _ (by omega), Nat.div_eq_of_lt ha]
  simp

theorem nativeIndex_mod_div {p : Panel} {x y : Int} {r : Nat} (h : nativeIndex p x y = some r) :
    r % p.pixWidth = (nativeOf p x y).1.toNat ∧ r / p.pixWidth = (nativeOf p x y).2.toNat := by
  obtain ⟨-, hn, rfl⟩ := nativeIndex_eq_some.mp h
  exact index_mod_div hn

/-- Two logical pixels with one cell are one pixel. -/
theorem nativeIndex_injective {p : Panel} {x y x' y' : Int} {r : Nat}
    (h : nativeIndex p x y = some r) (h' : nativeIndex p x' y' = some r) : x = x' ∧ y = y' := by
  obtain ⟨hmod, hdiv⟩ := nativeIndex_mod_div h
  obtain ⟨hmod', hdiv'⟩ := nativeIndex_mod_div h'
  obtain ⟨-, ⟨hX, -, hY, -⟩, -⟩ := nativeIndex_eq_some.mp h
  obtain ⟨-, ⟨hX', -, hY', -⟩, -⟩ := nativeIndex_eq_some.mp h'
  exact nativeOf_injective (p := p) (Prod.ext (by omega) (by omega))

/-- Every cell of the frame buffer is a logical pixel's. -/
theorem exists_nativeIndex {p : Panel} {idx : Nat} (h : idx < p.pixWidth * p.pixHeight) :
    ∃ x y : Int, nativeIndex p x y = some idx := by
  have hw : 0 < p.pixWidth := Nat.pos_of_mul_pos_right (by omega : 0 < p.pixWidth * p.pixHeight)
  have hin : inNative p ((idx % p.pixWidth : Nat) : Int) ((idx / p.pixWidth : Nat) : Int) :=
    ⟨Int.natCast_nonneg _, Int.ofNat_lt.mpr (Nat.mod_lt _ hw), Int.natCast_nonneg _,
      Int.ofNat_lt.mpr (Nat.div_lt_of_lt_mul h)⟩
  refine ⟨_, _, (nativeIndex_of_inside (logicalOf_inLogical hin)).trans ?_⟩
  rw [nativeOf_logicalOf]
  have hsum : idx / p.pixWidth * p.pixWidth + idx % p.pixWidth = idx := Nat.div_add_mod' ..
  exact congrArg some ((Int.toNat_natCast _).trans hsum)

/-- Settles O15: a cell index is a native coordinate in base `pixWidth`, and the transform is a
bijection. -/
theorem logicalPixelsAndCellsCorrespond : Obligations.LogicalPixelsAndCellsCorrespond := by
  refine fun p => ⟨fun x y x' y' r => nativeIndex_injective, fun idx => ⟨?_, exists_nativeIndex⟩⟩
  rintro ⟨x, y, h⟩
  exact nativeIndex_lt h

/-- Settles O16: the remainder and the quotient TONAT returns are the native coordinate. -/
theorem tonatReturnsNativeCoordinate : Obligations.TonatReturnsNativeCoordinate := by
  intro s d q x y hq
  split
  · next h =>
    have hr := nativeIndex_of_inside h
    obtain ⟨hmod, hdiv⟩ := nativeIndex_mod_div hr
    rw [exec_of_returns (.tonat hq hr), hmod, hdiv]
    rfl
  · next h => exact exec_of_returns (.tonatOutside hq (nativeIndex_of_outside h))

end Sys2Proof.Machine
end

section
/-! PROOF. The canvas commands (42_canvas R140-R150). Each sets the frame buffer of its slot to a
memory whose cells are said by one reading lemma; everything else is the frame of `setFb`. -/

namespace Sys2Proof.Machine

/-! ### The frame of a drawing command -/

theorem State.cell_of_display {s : State} {d : Nat} {q : Display} (hq : s.display d = some q)
    (idx : Nat) : s.cell d idx = some (q.fb.read idx) := by
  simp [State.cell, State.fb, hq]

theorem State.setFb_cell_same {s : State} {d : Nat} {q : Display} (hq : s.display d = some q)
    (m : Memory) (idx : Nat) : (s.setFb d m).cell d idx = some (m.read idx) := by
  simp [State.setFb_cell, State.fb, hq]

/-- Setting one frame buffer changes no other buffer, no driver record, no bus and no parameter. -/
theorem setFb_keeps (s : State) (d : Nat) (m : Memory) :
    SameCellsBut d s (s.setFb d m) ∧ SameDrivers s (s.setFb d m) ∧ SameBus s (s.setFb d m) ∧
      SameParams s (s.setFb d m) :=
  ⟨setFb_sameCellsBut s d m, State.setFb_driver s d m, ⟨rfl, rfl⟩, (BodyFrame.setFb s d m).params⟩

/-- Settles O22: a fill of the whole buffer. -/
theorem clrFillsEveryCell : Obligations.ClrFillsEveryCell := by
  intro s d q c hq
  have hreturns : Returns s (.clr d c) _ .ok none := .clr hq
  refine ⟨_, exec_of_returns hreturns, hreturns.completed, fun idx => ?_, setFb_keeps s d _⟩
  rw [State.finish_cell, State.setFb_cell_same hq, State.cell_of_display hq, Memory.read_fill]
  exact apply_ite some _ _ _

/-! ### One pixel -/

/-- Settles O23: a write of the pixel's cell, or a return with no body. -/
theorem setpxWritesOnePixel : Obligations.SetpxWritesOnePixel := by
  refine fun s d q c x y hq => ⟨fun h => ?_, fun h =>
    exec_of_returns (.setpxOutside hq (nativeIndex_of_outside h))⟩
  obtain ⟨r, hr⟩ : ∃ r, nativeIndex q.panel x y = some r := ⟨_, nativeIndex_of_inside h⟩
  have hreturns : Returns s (.setpx d c x y) _ .ok none := .setpx hq hr
  refine ⟨_, exec_of_returns hreturns, hreturns.completed, fun idx => ?_, setFb_keeps s d _⟩
  rw [State.finish_cell, State.setFb_cell_same hq, State.cell_of_display hq, Memory.read_write, hr]
  simp [eq_comm, apply_ite some]

/-- Settles O24: GETPX has no body. -/
theorem getpxReadsOnePixel : Obligations.GetpxReadsOnePixel := by
  refine fun s d q x y hq => ⟨fun h => ?_, fun h =>
    exec_of_returns (.getpxOutside hq (nativeIndex_of_outside h))⟩
  obtain ⟨r, hr⟩ : ∃ r, nativeIndex q.panel x y = some r := ⟨_, nativeIndex_of_inside h⟩
  exact ⟨r, hr, exec_of_returns (.getpx hq hr)⟩

/-- Settles O25: GETPX reads the cell SETPX wrote. -/
theorem getpxAfterSetpxReturnsTheColor : Obligations.GetpxAfterSetpxReturnsTheColor := by
  intro s d q c x y hq h
  obtain ⟨r, hr⟩ : ∃ r, nativeIndex q.panel x y = some r := ⟨_, nativeIndex_of_inside h⟩
  have hset : Returns s (.setpx d c x y) _ .ok none := .setpx hq hr
  have hq' : ((s.setFb d (q.fb.write r c)).finish 2 .ok none).display d =
      some { q with fb := q.fb.write r c } := by
    simp [State.setFb, hq]
  refine ⟨_, _, exec_of_returns hset, exec_of_returns (.getpx hq' hr), ?_⟩
  simp [Instr.len, Instr.opcode]

theorem glyphColor_eq (cov th : Byte) (bg : Color) :
    glyphColor cov th bg = if th.toNat < cov.toNat then makeRGB cov cov cov else bg := by
  unfold glyphColor
  split
  · rfl
  · exact makeRGB_channels bg

/-- Settles O29: the replacement of the background is the gray or the background itself. -/
theorem glyphCutsOverAtThreshold : Obligations.GlyphCutsOverAtThreshold := by
  refine fun s d q cov th x y hq => ⟨fun h => ?_, fun h =>
    exec_of_returns (.glyphOutside hq (nativeIndex_of_outside h))⟩
  obtain ⟨r, hr⟩ : ∃ r, nativeIndex q.panel x y = some r := ⟨_, nativeIndex_of_inside h⟩
  have hreturns : Returns s (.glyph d cov th x y) _ .ok none := .glyph hq hr
  refine ⟨_, exec_of_returns hreturns, hreturns.completed, fun idx => ?_, setFb_keeps s d _⟩
  rw [State.finish_cell, State.setFb_cell_same hq, State.cell_of_display hq, Memory.read_write,
    glyphColor_eq, hr]
  by_cases hidx : r = idx
  · subst hidx
    simp [apply_ite some]
  · simp [hidx, Ne.symm hidx]

/-! ### Loops over pixels -/

/-- A cell after a loop: a Color, if an element hits the cell, and as before otherwise. -/
theorem foldl_read {α : Type} {f : Memory → α → Memory} {hit : α → Prop} [DecidablePred hit]
    {c : Color} {idx : Nat} {l : List α}
    (h : ∀ a ∈ l, ∀ m, (f m a).read idx = if hit a then c else m.read idx) (m : Memory) :
    (l.foldl f m).read idx = if ∃ a ∈ l, hit a then c else m.read idx := by
  induction l generalizing m with
  | nil => simp
  | cons a l ih =>
    rw [List.foldl_cons, ih fun b hb => h b (by simp [hb]), h a (by simp)]
    by_cases ha : hit a <;> simp [ha]

theorem putPixel_read (p : Panel) (x y : Int) (c : Color) (m : Memory) (idx : Nat) :
    (putPixel p x y c m).read idx = if nativeIndex p x y = some idx then c else m.read idx := by
  cases hr : nativeIndex p x y with
  | none => simp [putPixel_of_none hr]
  | some r => simp [putPixel_of_some hr, Memory.read_write]

theorem fillPixels_read (p : Panel) (c : Color) (ys xs : List Int) (m : Memory) (idx : Nat) :
    (fillPixels p c ys xs m).read idx =
      if ∃ y ∈ ys, ∃ x ∈ xs, nativeIndex p x y = some idx then c else m.read idx :=
  foldl_read (fun y _ m => foldl_read (fun x _ m => putPixel_read p x y c m idx) m) m

/-- A logical pixel's cell after RECT's loops (42_canvas R145). -/
theorem drawRect_read {p : Panel} {x y : Int} {idx : Nat} (h : nativeIndex p x y = some idx)
    (c : Color) (x1 y1 x2 y2 : Int) (m : Memory) :
    (drawRect p c x1 y1 x2 y2 m).read idx =
      if x1 ≤ x ∧ x ≤ x2 ∧ y1 ≤ y ∧ y < y2 then c else m.read idx := by
  rw [drawRect_eq_all_pixels, fillPixels_read]
  refine if_congr ⟨?_, fun ⟨hx1, hx2, hy1, hy2⟩ => ?_⟩ rfl rfl
  · rintro ⟨y', hy', x', hx', h'⟩
    obtain ⟨rfl, rfl⟩ := nativeIndex_injective h h'
    rw [mem_intRange] at hx' hy'
    omega
  · exact ⟨y, mem_intRange.mpr ⟨hy1, by omega⟩, x, mem_intRange.mpr ⟨hx1, hx2⟩, h⟩

theorem drawRect_read_beyond {p : Panel} {idx : Nat} (h : cellCount p ≤ idx) (c : Color)
    (x1 y1 x2 y2 : Int) (m : Memory) : (drawRect p c x1 y1 x2 y2 m).read idx = m.read idx := by
  rw [drawRect_eq_all_pixels, fillPixels_read, if_neg]
  rintro ⟨y, -, x, -, hr⟩
  exact absurd (nativeIndex_lt hr) (Nat.not_lt.mpr h)

/-- Settles O26: RECT's loops cell by cell. -/
theorem rectFillsInclusiveXHalfOpenY : Obligations.RectFillsInclusiveXHalfOpenY := by
  intro s d q c x1 y1 x2 y2 hq
  have hreturns : Returns s (.rect d c x1 y1 x2 y2) _ .ok none := .rect hq
  refine ⟨_, exec_of_returns hreturns, hreturns.completed, fun x y idx h => ?_, fun idx h => ?_,
    setFb_keeps s d _⟩
  · rw [State.finish_cell, State.setFb_cell_same hq, State.cell_of_display hq, drawRect_read h]
    exact apply_ite some _ _ _
  · rw [State.finish_cell, State.setFb_cell_same hq, State.cell_of_display hq,
      drawRect_read_beyond h]

/-! ### Images -/

/-- Image pixel `(ix, iy)` is opaque and its place is the cell `idx`. -/
def Paints (p : Panel) (img : Image) (xStart yStart : Int) (idx iy ix : Nat) : Prop :=
  nativeIndex p (xStart + ix) (yStart + iy) = some idx ∧
    ∃ c, img.pix[iy * img.w + ix]? = some c ∧ transparent c = false

theorem drawImagePixel_read_of_not_paints {p : Panel} {img : Image} {xs ys : Int} {idx iy ix : Nat}
    (h : ¬ Paints p img xs ys idx iy ix) (m : Memory) :
    (drawImagePixel p img xs ys iy ix m).read idx = m.read idx := by
  unfold drawImagePixel
  split
  · rfl
  · next c hc =>
    split
    · rfl
    · next ht =>
      rw [putPixel_read, if_neg]
      exact fun hr => h ⟨hr, c, hc, by simpa using ht⟩

theorem drawImagePixel_read_of_opaque {p : Panel} {img : Image} {xs ys : Int} {idx iy ix : Nat}
    {c : Color} (hr : nativeIndex p (xs + ix) (ys + iy) = some idx)
    (hc : img.pix[iy * img.w + ix]? = some c) (ht : transparent c = false) (m : Memory) :
    (drawImagePixel p img xs ys iy ix m).read idx = c := by
  simp [drawImagePixel, hc, ht, putPixel_read, hr]

/-- A cell after IMG's loops, from what each pixel of the image makes of it. -/
theorem drawImage_read {p : Panel} {img : Image} {xs ys : Int} {idx : Nat} {c : Color}
    {hit : Nat → Nat → Prop} [∀ iy, DecidablePred (hit iy)]
    (h : ∀ iy < img.h, ∀ ix < img.w, ∀ m, (drawImagePixel p img xs ys iy ix m).read idx =
      if hit iy ix then c else m.read idx) (m : Memory) :
    (drawImage p img xs ys m).read idx =
      if ∃ iy ∈ List.range img.h, ∃ ix ∈ List.range img.w, hit iy ix then c else m.read idx :=
  foldl_read (fun iy hiy m => foldl_read (fun ix hix m =>
    h iy (List.mem_range.mp hiy) ix (List.mem_range.mp hix) m) m) m

theorem drawImage_read_of_not_paints {p : Panel} {img : Image} {xs ys : Int} {idx : Nat}
    (h : ∀ iy < img.h, ∀ ix < img.w, ¬ Paints p img xs ys idx iy ix) (m : Memory) :
    (drawImage p img xs ys m).read idx = m.read idx := by
  rw [drawImage_read (c := m.read idx) (hit := fun _ _ => False)
    fun iy hiy ix hix m => by simp [drawImagePixel_read_of_not_paints (h iy hiy ix hix)], ite_self]

/-- Of an image at one place, only pixel `(ix, iy)` can reach the cell at its place. -/
theorem paints_unique {p : Panel} {img : Image} {xs ys : Int} {idx iy ix iy' ix' : Nat}
    (hr : nativeIndex p (xs + ix) (ys + iy) = some idx) (h : Paints p img xs ys idx iy' ix') :
    iy' = iy ∧ ix' = ix := by
  obtain ⟨hx, hy⟩ := nativeIndex_injective hr h.1
  omega

/-- The cell of an opaque image pixel after IMG's loops (42_canvas R147). -/
theorem drawImage_read_of_opaque {p : Panel} {img : Image} {xs ys : Int} {idx iy ix : Nat}
    {c : Color} (hix : ix < img.w) (hiy : iy < img.h)
    (hr : nativeIndex p (xs + ix) (ys + iy) = some idx)
    (hc : img.pix[iy * img.w + ix]? = some c) (ht : transparent c = false) (m : Memory) :
    (drawImage p img xs ys m).read idx = c := by
  rw [drawImage_read (c := c) (hit := fun iy' ix' => iy' = iy ∧ ix' = ix), if_pos]
  · exact ⟨iy, List.mem_range.mpr hiy, ix, List.mem_range.mpr hix, rfl, rfl⟩
  · intro iy' _ ix' _ m
    split
    · next h =>
      obtain ⟨rfl, rfl⟩ := h
      exact drawImagePixel_read_of_opaque hr hc ht m
    · next h => exact drawImagePixel_read_of_not_paints (fun hp => h (paints_unique hr hp)) m

/-- Settles O27: the cell of an image pixel is painted by that pixel alone, and no pixel of the
image reaches any other cell. -/
theorem imgDrawsOpaquePixels : Obligations.ImgDrawsOpaquePixels := by
  intro s d q id img xs ys hq hid
  have hreturns : Returns s (.img d id xs ys) _ .ok none := .img hq hid
  have hkeeps (idx : Nat) (h : ∀ iy < img.h, ∀ ix < img.w, ¬ Paints q.panel img xs ys idx iy ix) :
      ((s.setFb d (drawImage q.panel img xs ys q.fb)).finish 2 .ok none).cell d idx =
        s.cell d idx := by
    rw [State.finish_cell, State.setFb_cell_same hq, State.cell_of_display hq,
      drawImage_read_of_not_paints h]
  refine ⟨_, exec_of_returns hreturns, hreturns.completed, fun ix iy c idx hix hiy hc hr => ?_,
    fun x y idx hr hout => ?_, fun idx hidx => ?_, setFb_keeps s d _⟩
  · cases ht : transparent c with
    | true =>
      refine hkeeps idx fun iy' _ ix' _ hp => ?_
      obtain ⟨rfl, rfl⟩ := paints_unique hr hp
      obtain ⟨-, c', hc', ht'⟩ := hp
      cases hc.symm.trans hc'
      simp [ht] at ht'
    | false =>
      rw [State.finish_cell, State.setFb_cell_same hq, drawImage_read_of_opaque hix hiy hr hc ht]
      rfl
  · refine hkeeps idx fun iy hiy ix hix hp => ?_
    obtain ⟨hx, hy⟩ := nativeIndex_injective hr hp.1
    omega
  · exact hkeeps idx fun iy _ ix _ hp => absurd (nativeIndex_lt hp.1) (Nat.not_lt.mpr hidx)

theorem drawImage_of_transparent {img : Image} (h : ∀ c ∈ img.pix, transparent c = true) (p : Panel)
    (xs ys : Int) (m : Memory) : drawImage p img xs ys m = m := by
  unfold drawImage
  refine List.foldl_fixed' (fun iy => ?_) _
  refine List.foldl_fixed' (fun ix => ?_) _
  unfold drawImagePixel
  split
  · rfl
  · next c hc => rw [if_pos (h c (List.mem_of_getElem? hc))]

/-- Settles O28: no pixel is drawn, so the buffer is set to itself. -/
theorem chromaKeyImageLeavesBufferUnchanged : Obligations.ChromaKeyImageLeavesBufferUnchanged := by
  intro s d q id img xs ys hq hid h
  have hself : s.setFb d q.fb = s := State.updDisplay_eq_self fun q' hq' => by
    cases hq.symm.trans hq'
    rfl
  rw [exec_of_returns (.img hq hid), drawImage_of_transparent h, hself]
  rfl

end Sys2Proof.Machine
end

section
/-! PROOF. The panel driver commands (43_panel_driver R170-R182). Each is one action on the display
of its slot, so what it changes and keeps is said once; the event lists are those the statements
write out. -/

namespace Sys2Proof.Machine

/-! ### What an action on one display leaves -/

theorem State.act_driver (s : State) (d : Nat) (f : Display → Display) (evs : List Event)
    (k : Nat) : (s.act d f evs).driver k =
      if k = d then (s.display k).map fun q => (f q).driver else s.driver k := by
  unfold State.driver
  rw [State.act_display]
  split
  · rw [Option.map_map]
    rfl
  · rfl

theorem State.act_cell {s : State} {d : Nat} {f : Display → Display} {evs : List Event}
    (hf : ∀ q, (f q).fb = q.fb) (k idx : Nat) : (s.act d f evs).cell k idx = s.cell k idx := by
  unfold State.cell State.fb
  rw [State.act_display]
  split
  · cases s.display k <;> simp [hf]
  · rfl

/-- A command that acts on its display and keeps panel and buffer: its events, one record, and
nothing else. -/
theorem exec_act {s : State} {i : Instr} {d : Nat} {q : Display} {f : Display → Display}
    {evs : List Event} (h : Returns s i (s.act d f evs) .ok none) (hq : s.display d = some q)
    (hpanel : ∀ q, (f q).panel = q.panel) (hfb : ∀ q, (f q).fb = q.fb) :
    ∃ t, exec i s = .next t ∧ Completed i.len .ok none s t ∧ t.trace = s.trace ++ evs ∧
      t.driver d = some (f q).driver ∧ SameDriversBut d s t ∧ t.chain = s.chain ∧ SameCells s t ∧
      SameParams s t := by
  refine ⟨_, exec_of_returns h, h.completed, rfl, ?_, fun k hk => ?_, rfl,
    State.act_cell (evs := evs) hfb, (s.act_frame d f evs hpanel).params⟩
  · rw [State.finish_driver, State.act_driver, if_pos rfl, hq]
    rfl
  · rw [State.finish_driver, State.act_driver, if_neg hk]

/-! ### The commands as actions -/

/-- The change PWR makes (43_panel_driver R180). -/
def Display.withOn (on : Bool) (q : Display) : Display :=
  { q with driver := { q.driver with on := some on } }

/-- The change INV makes (43_panel_driver R182). -/
def Display.withInverted (on : Bool) (q : Display) : Display :=
  { q with driver := { q.driver with inverted := some on } }

/-- The command byte of INV, in the words of 43_panel_driver R182. -/
theorem invertByte_eq (cfg : Cfg) (v : Variant) (on : Bool) :
    invertByte cfg v on =
      if (cfg.invertPolarity v = .direct ↔ on = true) then cfg.cmdCode.invon
      else cfg.cmdCode.invoff := by
  unfold invertByte physicalInvert
  cases cfg.invertPolarity v <;> cases on <;> rfl

theorem initEvents_eq_initTrace (cfg : Cfg) (p : Panel) (sel : List Nat) :
    initEvents cfg p sel = initTrace cfg p sel := by
  unfold initEvents initTrace
  simp only [sendCmd, List.map_nil, List.append_assoc]
  rfl

theorem map_wireBytes (o : ByteOrder) (c : Color) (sel : List Nat) :
    (wireBytes o c).map (Event.data · sel) = colorTrace o c sel := by
  cases o <;> rfl

theorem pixelEvents_cells (o : ByteOrder) (m : Memory) (n : Nat) (sel : List Nat) :
    pixelEvents o (m.cells n) sel =
      (List.range n).flatMap fun idx => colorTrace o (m.read idx) sel := by
  simp only [pixelEvents, Memory.cells, List.map_flatMap, List.flatMap_map, map_wireBytes]

theorem updEvents_eq_updTrace (cfg : Cfg) (q : Display) (sel : List Nat) :
    updEvents cfg q sel = updTrace cfg q sel := by
  unfold updEvents updTrace
  rw [pixelEvents_cells]
  simp only [windowEvents, sendCmd, List.map_nil, List.append_assoc]
  rfl

section
variable {s : State} {d : Nat} {q : Display} {sel : List Nat} (hq : s.display d = some q)
  (hsel : s.sel = some sel)
include hq hsel

theorem returns_init :
    Returns s (.init d) (s.act d Display.initialise (initTrace s.cfg q.panel sel)) .ok none := by
  obtain ⟨hk, rfl⟩ := State.sel_eq_some.mp hsel
  rw [← initEvents_eq_initTrace, ← initBody_eq_act]
  exact .init hq hk

variable (hr : q.driver.lifecycle = .ready)
include hr

theorem returns_upd :
    Returns s (.upd d) (s.act d Display.powerOn (updTrace s.cfg q sel)) .ok none := by
  obtain ⟨hk, rfl⟩ := State.sel_eq_some.mp hsel
  rw [← updEvents_eq_updTrace, ← updBody_eq_act hq]
  exact .upd hq hr hk

theorem returns_pwr (on : Bool) :
    Returns s (.pwr d on) (s.act d (Display.withOn on) [.cmd (powerByte s.cfg on) sel]) .ok
      none := by
  obtain ⟨hk, rfl⟩ := State.sel_eq_some.mp hsel
  exact emit_setOn_eq_act s d on (sendCmd_quiet _ (powerByte s.cfg on) []) ▸ .pwr hq hr hk

theorem returns_inv (on : Bool) :
    Returns s (.inv d on) (s.act d (Display.withInverted on)
      [.cmd (invertByte s.cfg q.panel.variant on) sel]) .ok none := by
  obtain ⟨hk, rfl⟩ := State.sel_eq_some.mp hsel
  exact emit_setInverted_eq_act s d on
    (sendCmd_quiet _ (invertByte s.cfg q.panel.variant on) []) ▸ .inv hq hr hk

end

/-! ### The obligations -/

/-- Settles O32: INIT is the action that sends its sequence and sets the record. -/
theorem initRunsTheSequenceAndEndsReady : Obligations.InitRunsTheSequenceAndEndsReady := by
  intro s d q sel hq hsel
  exact exec_act (returns_init hq hsel) hq (fun _ => rfl) fun _ => rfl

/-- Settles O33: UPD is the action that sends its sequence and sets `on` where it was false. -/
theorem updStreamsWindowAndCells : Obligations.UpdStreamsWindowAndCells := by
  intro s d q sel hq hr hsel
  exact exec_act (returns_upd hq hsel hr) hq (fun _ => rfl) fun _ => rfl

theorem updEvents_length (cfg : Cfg) (q : Display) (sel : List Nat) :
    (updEvents cfg q sel).length =
      (if q.driver.on = some false then 1 else 0) + 5 + 5 + 1 + 2 * cellCount q.panel := by
  simp only [updEvents, windowEvents, sendCmd, windowBytes, List.length_append, List.length_cons,
    List.length_map, List.length_nil, pixelEvents_length, Memory.cells_length,
    apply_ite List.length]

/-- Settles O34: the events of UPD, counted. -/
theorem updEmitsCountedSpiEvents : Obligations.UpdEmitsCountedSpiEvents := by
  intro s t d q b hq hdriver hk h
  have hr : q.driver.lifecycle = .ready := by rw [hdriver]
  have hon : q.driver.on = some b := by rw [hdriver]
  obtain rfl : (updBody d q s).finish 1 .ok none = t :=
    Host.Outcome.next.inj ((exec_of_returns (.upd hq hr hk)).symm.trans h)
  rw [State.finish_trace, updBody_trace, List.length_append, updEvents_length, hon]
  cases b <;> rfl

/-- Settles O36: PWR is the action that sends one command and sets `on`. -/
theorem pwrSendsAndSetsOn : Obligations.PwrSendsAndSetsOn := by
  intro s d q sel on hq hr hsel
  exact exec_act (returns_pwr hq hsel hr on) hq (fun _ => rfl) fun _ => rfl

/-- Settles O37: INV is the action that sends the polarity's command and sets `inverted`. -/
theorem invSendsByPolarityAndSetsInverted : Obligations.InvSendsByPolarityAndSetsInverted := by
  intro s d q sel on hq hr hsel
  rw [← invertByte_eq]
  exact exec_act (returns_inv hq hsel hr on) hq (fun _ => rfl) fun _ => rfl

end Sys2Proof.Machine
end

section
/-! PROOF. Broadcast (44_bus_addressor R211, 10_state R37). Every byte of a command is tagged with
one selection, so a panel of the selection receives all of them and any other panel none. -/

namespace Sys2Proof.Machine

/-- A byte of the event goes to `sel`. -/
def Event.sentTo (sel : List Nat) : Event → Prop
  | .pin _ _ => True
  | .delay _ => True
  | .cmd _ sel' => sel' = sel
  | .data _ sel' => sel' = sel

@[simp] theorem Event.sentTo_delay (sel : List Nat) (ms : Nat) : (Event.delay ms).sentTo sel :=
  trivial

@[simp] theorem Event.sentTo_cmd {sel sel' : List Nat} {b : Byte} :
    (Event.cmd b sel').sentTo sel ↔ sel' = sel := Iff.rfl

@[simp] theorem Event.sentTo_data {sel sel' : List Nat} {b : Byte} :
    (Event.data b sel').sentTo sel ↔ sel' = sel := Iff.rfl

@[simp] theorem pulseEvent_sentTo (sel : List Nat) (p : PulseStep) : (pulseEvent p).sentTo sel := by
  cases p <;> trivial

theorem receives_of_sentTo {sel : List Nat} {e : Event} (h : e.sentTo sel) (s : State) (k : Nat) :
    s.receives k e = (e.isByte && ((s.display k).isSome && decide (k ∈ sel))) := by
  cases e with
  | pin | delay => rfl
  | cmd b sel' | data b sel' =>
    cases h
    simp [State.receives, Event.isByte]

theorem filter_receives {sel : List Nat} {evs : List Event} (h : ∀ e ∈ evs, e.sentTo sel)
    (s : State) (k : Nat) : evs.filter (s.receives k) =
      if (s.display k).isSome ∧ k ∈ sel then evs.filter Event.isByte else [] := by
  rw [List.filter_congr fun e he => receives_of_sentTo (h e he) s k]
  split
  · next hk => simp [hk]
  · next hk =>
    rw [List.filter_eq_nil_iff]
    intro e _ he
    simp only [Bool.and_eq_true, decide_eq_true_eq] at he
    exact hk he.2

/-! ### The events of each command -/

theorem initTrace_sentTo (cfg : Cfg) (p : Panel) (sel : List Nat) :
    ∀ e ∈ initTrace cfg p sel, e.sentTo sel := by
  simp only [initTrace, List.forall_mem_append, List.forall_mem_flatMap]
  exact ⟨⟨⟨by simp, by simp⟩, fun x _ => ⟨⟨by simp, by simp⟩, by simp⟩⟩, by simp⟩

/-- UPD sends nothing but bytes to the selection. -/
theorem updTrace_bytesTo (cfg : Cfg) (q : Display) (sel : List Nat) :
    ∀ e ∈ updTrace cfg q sel, e.sentTo sel ∧ e.isByte = true := by
  have hcolor (o : ByteOrder) (c : Color) :
      ∀ e ∈ colorTrace o c sel, e.sentTo sel ∧ e.isByte = true := by
    cases o <;> simp [colorTrace, Event.isByte]
  have hwindow (c : Byte) (first last : BitVec 16) :
      ∀ e ∈ windowTrace c first last sel, e.sentTo sel ∧ e.isByte = true := by
    simp [windowTrace, Event.isByte]
  simp only [updTrace, List.forall_mem_append, List.forall_mem_flatMap]
  refine ⟨⟨⟨⟨?_, hwindow _ _ _⟩, hwindow _ _ _⟩, by simp [Event.isByte]⟩, fun _ _ => hcolor _ _⟩
  split <;> simp [Event.isByte]

/-! ### What reaches the panels -/

theorem State.act_receives (s : State) (d : Nat) (f : Display → Display) (evs : List Event)
    (k : Nat) : (s.act d f evs).receives k = s.receives k := by
  have hpresent : ((s.act d f evs).display k).isSome = (s.display k).isSome := by
    rw [State.act_display]
    split <;> simp
  funext e
  cases e <;> simp [State.receives, hpresent]

/-- A command that acts on its display and sends every event to `sel`. -/
theorem exec_act_reaches {s : State} {i : Instr} {d : Nat} {f : Display → Display} {sel : List Nat}
    {evs bytes : List Event} (h : Returns s i (s.act d f evs) .ok none)
    (hsent : ∀ e ∈ evs, e.sentTo sel) (hbytes : bytes = evs.filter Event.isByte) :
    ∃ t, exec i s = .next t ∧ SameDriversBut d s t ∧
      ∀ k, t.panelTrace k = s.panelTrace k ++
        if (s.display k).isSome ∧ k ∈ sel then bytes else [] := by
  refine ⟨_, exec_of_returns h, fun k hk => ?_, fun k => ?_⟩
  · rw [State.finish_driver, State.act_driver, if_neg hk]
  · rw [hbytes, ← filter_receives hsent s k]
    show (s.trace ++ evs).filter ((s.act d f evs).receives k) = _
    rw [State.act_receives, List.filter_append]
    rfl

/-- Settles O49: the four commands act on their display and send to `Sel(S)` alone. -/
theorem panelBytesReachExactlyTheSelectedPanels :
    Obligations.PanelBytesReachExactlyTheSelectedPanels := by
  rintro s i d q sel bytes hq hsel
    (⟨rfl, rfl⟩ | ⟨hr, ⟨rfl, rfl⟩ | ⟨on, rfl, rfl⟩ | ⟨on, rfl, rfl⟩⟩)
  · exact exec_act_reaches (returns_init hq hsel) (initTrace_sentTo _ _ _) rfl
  · exact exec_act_reaches (returns_upd hq hsel hr) (fun e he => (updTrace_bytesTo _ _ _ e he).1)
      (List.filter_eq_self.mpr fun e he => (updTrace_bytesTo _ _ _ e he).2).symm
  · exact exec_act_reaches (returns_pwr hq hsel hr on) (by simp [Event.sentTo]) rfl
  · rw [← invertByte_eq]
    exact exec_act_reaches (returns_inv hq hsel hr on) (by simp [Event.sentTo]) rfl

end Sys2Proof.Machine
end

section
/-! PROOF. The selection commands (44_bus_addressor R201-R204): each is one walk to a vector given
by its bits, whose events, outputs, selection and frame are said once. -/

namespace Sys2Proof.Machine

/-- Settles O40: the stages and lines the walk leaves, and the selection its outputs give. -/
theorem walkLeavesTargetInOutputs : Obligations.WalkLeavesTargetInOutputs := by
  intro s t0 ts h
  have hchain := walk_chain_of_length h
  exact ⟨hchain, State.sel_of_out (congrArg Chain.out hchain)⟩

/-- A walk to the bits `bit` from a chain of `N + 1` stages, and a return. -/
theorem exec_walk {s : State} {i : Instr} {bit : Nat → Bool}
    (h : Returns s i (walk ((List.range (s.numSlots + 1)).map bit) s) .ok none)
    (hs : s.chain.sr.length = s.numSlots + 1) :
    ∃ t, exec i s = .next t ∧ Completed i.len .ok none s t ∧
      t.trace = s.trace ++ walkTrace (s.numSlots + 1) bit ∧
      t.chain.out = (List.range (s.numSlots + 1)).map (fun j => Level.ofBool (bit j)) ∧
      t.sel = some ((List.range (s.numSlots + 1)).filter fun j => !bit j) ∧ t.chain.clock = .low ∧
      SameDrivers s t ∧ SameCells s t ∧ SameParams s t := by
  have hne : (List.range (s.numSlots + 1)).map bit ≠ [] := by simp [List.range_succ]
  obtain ⟨hout, hclock⟩ := walk_out_of_length (s := s) hne (by simpa using hs)
  refine ⟨_, exec_of_returns h, h.completed, ?_, ?_, ?_, hclock, fun _ => rfl, fun _ _ => rfl,
    h.frame.params⟩
  · exact congrArg (s.trace ++ ·) (walkEvents_map_range _ bit)
  · exact hout.trans (List.map_map ..)
  · refine (State.sel_of_out hout).trans (congrArg some ?_)
    rw [List.length_map, List.length_range]
    refine List.filter_congr fun j hj => ?_
    have hlt : j < s.numSlots + 1 := List.mem_range.mp hj
    cases hb : bit j <;> simp [hlt, hb]

/-- Settles O42: the walk of `selVec`. -/
theorem seldSelectsOnePosition : Obligations.SeldSelectsOnePosition := by
  intro s i hi hs
  obtain ⟨t, hexec, hdone, htrace, hout, -, hclock, hframe⟩ :=
    exec_walk (bit := fun j => decide (j ≠ i)) (.seld hi) hs
  have hsel : t.sel = some [i] := by
    rw [Host.Outcome.next.inj (hexec.symm.trans (exec_of_returns (.seld hi)))]
    exact (walkTo_selects (Nat.lt_succ_of_lt hi) hs).1
  refine ⟨t, hexec, hdone, htrace, ?_, hsel, hclock, hframe⟩
  rw [hout]
  refine List.map_congr_left fun j _ => ?_
  by_cases hj : j = i <;> simp [hj, Level.ofBool]

/-- SELM's vector, its phantom position included, holds the mask's bits inverted. -/
theorem maskVec_eq {mask : Word} {n : Nat} (h : mask.getLsbD n = false) :
    maskVec mask n = (List.range (n + 1)).map fun j => !mask.getLsbD j := by
  simp [maskVec, maskBit, List.range_succ, h]

/-- Settles O43: the walk of the inverted mask, whose phantom position is 1. -/
theorem selmSelectsTheMask : Obligations.SelmSelectsTheMask := by
  intro s mask hmask hs
  have hphantom : mask.getLsbD s.numSlots = false := hmask _ (Nat.le_refl _)
  have hreturns := Returns.selm (maskBeyond_eq_false.mpr hmask)
  rw [maskVec_eq hphantom] at hreturns
  obtain ⟨t, hexec, hdone, htrace, hout, hsel, hclock, hframe⟩ := exec_walk hreturns hs
  refine ⟨t, hexec, hdone, htrace, ?_, ?_, hclock, hframe⟩
  · rw [hout]
    refine List.map_congr_left fun j _ => ?_
    cases mask.getLsbD j <;> rfl
  · rw [hsel, List.range_succ, List.filter_append]
    simp [hphantom]

/-- Settles O44: the walk of the zero vector. -/
theorem selaSelectsEveryPosition : Obligations.SelaSelectsEveryPosition := by
  intro s hs
  have hreturns :
      Returns s .sela (walk ((List.range (s.numSlots + 1)).map fun _ => false) s) .ok none := by
    rw [List.map_const', List.length_range]
    exact .sela
  obtain ⟨t, hexec, hdone, htrace, hout, hsel, hclock, hframe⟩ := exec_walk hreturns hs
  refine ⟨t, hexec, hdone, htrace, ?_, ?_, hclock, hframe⟩
  · rw [hout]
    simp [Level.ofBool]
  · rw [hsel]
    simp

end Sys2Proof.Machine
end

section
/-! PROOF. The orchestration commands (44_bus_addressor R205-R208): loops of visits, whose events,
displays and last selection `visits_trace`, `visits_display` and `visits_selects` give. -/

namespace Sys2Proof.Machine

theorem State.display_eq_none_of_le {s : State} {k : Nat} (h : s.numSlots ≤ k) :
    s.display k = none := by
  rw [State.display, List.getElem?_eq_none h]
  rfl

section
variable (evs : Cfg → Display → List Nat → List Event) (f : Cfg → Display → Display)

/-- The record and the cells of slot `k` after a loop of visits. -/
theorem visits_driver {l : List Nat} (hl : l.Nodup) (s : State) (k : Nat) :
    (l.foldl (visit evs f) s).driver k =
      if k ∈ l then (s.display k).map fun q => (f s.cfg q).driver else s.driver k := by
  unfold State.driver
  rw [visits_display evs f hl]
  split
  · rw [Option.map_map]
    rfl
  · rfl

theorem visits_cell {l : List Nat} (hl : l.Nodup) (s : State) (k idx : Nat) :
    (l.foldl (visit evs f) s).cell k idx =
      if k ∈ l then (s.display k).map fun q => (f s.cfg q).fb.read idx else s.cell k idx := by
  unfold State.cell State.fb
  rw [visits_display evs f hl]
  split
  · rw [Option.map_map, Option.map_map]
    rfl
  · rfl

/-- Through a loop over every slot that keeps the buffers, every cell reads the same. -/
theorem visits_sameCells (hf : ∀ cfg q, (f cfg q).fb = q.fb) {l : List Nat} (hl : l.Nodup)
    (s : State) : SameCells s (l.foldl (visit evs f) s) := by
  intro k idx
  rw [visits_cell evs f hl]
  split
  · simp only [hf, State.cell, State.fb, Option.map_map]
    rfl
  · rfl

/-- A loop over every slot changes every record. -/
theorem visits_range_driver (s : State) (k : Nat) :
    ((List.range s.numSlots).foldl (visit evs f) s).driver k =
      (s.display k).map fun q => (f s.cfg q).driver := by
  rw [visits_driver evs f List.nodup_range]
  split
  · rfl
  · next hk =>
    have hle : s.numSlots ≤ k := Nat.not_lt.mp fun h => hk (List.mem_range.mpr h)
    rw [State.driver, State.display_eq_none_of_le hle]
    rfl

/-- After a loop over every slot the last one alone is selected. -/
theorem visits_range_selects {s : State} (hpos : 0 < s.numSlots)
    (hs : s.chain.sr.length = s.numPositions) :
    ((List.range s.numSlots).foldl (visit evs f) s).sel = some [s.numSlots - 1] ∧
      ((List.range s.numSlots).foldl (visit evs f) s).chain.clock = .low := by
  refine visits_selects evs f ?_ ?_ hs
  · rw [List.getLast?_range, if_neg (Nat.ne_of_gt hpos)]
  · rw [State.numPositions]
    omega

end

/-- The events of a loop, as the statements write them: by a match on the slot. -/
theorem visits_trace_match (evs : Cfg → Display → List Nat → List Event)
    (f : Cfg → Display → Display) {l : List Nat} (hl : l.Nodup) {s : State}
    (hlt : ∀ i ∈ l, i < s.numSlots) (hs : s.chain.sr.length = s.numPositions)
    {spec : Display → List Nat → List Event} (hspec : ∀ q sel, evs s.cfg q sel = spec q sel) :
    (l.foldl (visit evs f) s).trace = s.trace ++ l.flatMap fun i =>
      seldTrace (s.numSlots + 1) i ++
        match s.display i with
        | none => []
        | some q => spec q [i] := by
  rw [visits_trace evs f hl (fun i hi => Nat.lt_succ_of_lt (hlt i hi)) hs]
  congr 1
  refine List.flatMap_congr fun i _ => ?_
  cases s.display i with
  | none => rfl
  | some q => exact congrArg (_ ++ ·) (hspec q [i])

/-- Settles O45: the pulse, and a visit of every index. -/
theorem initallInitialisesEveryPresentDisplay :
    Obligations.InitallInitialisesEveryPresentDisplay := by
  intro s hs
  have hreturns : Returns s .initall _ .ok none := .initall
  rw [initAt_eq_visit] at hreturns
  have hs' : (s.emit (s.cfg.globalResetPulse.map pulseEvent)).chain.sr.length = s.numPositions :=
    (Chain.foldl_apply_sr_length _ _).trans hs
  refine ⟨_, exec_of_returns hreturns, hreturns.completed, ?_, ?_, ?_, ?_, hreturns.frame.params⟩
  · exact visits_trace_match visitInit _ List.nodup_range (fun i => List.mem_range.mp) hs'
      (spec := fun q => initTrace s.cfg q.panel) fun q => initEvents_eq_initTrace s.cfg q.panel
  · intro k
    refine (visits_range_driver _ _ _ k).trans ?_
    rw [State.driver, Option.map_map]
    rfl
  · exact fun hpos => visits_range_selects _ _ hpos hs'
  · exact visits_sameCells visitInit (fun _ => Display.initialise) (fun _ _ => rfl)
      List.nodup_range _

/-- Settles O46: a visit of every index. -/
theorem updallUpdatesEveryPresentDisplay : Obligations.UpdallUpdatesEveryPresentDisplay := by
  intro s hs hready
  have hreturns : Returns s .updall _ .ok none :=
    .updall fun k _ => State.notReadyAt_eq_false.mpr (hready k)
  rw [updateAt_eq_visit] at hreturns
  refine ⟨_, exec_of_returns hreturns, hreturns.completed, ?_, ?_, ?_, ?_, hreturns.frame.params⟩
  · exact visits_trace_match _ _ List.nodup_range (fun i => List.mem_range.mp) hs
      (updEvents_eq_updTrace s.cfg)
  · intro k
    refine (visits_range_driver _ _ s k).trans ?_
    rw [State.driver, Option.map_map]
    rfl
  · exact fun hpos => visits_range_selects _ _ hpos hs
  · exact visits_sameCells updEvents (fun _ => Display.powerOn) (fun _ _ => rfl) List.nodup_range s

/-! ### UPDD and UPDM -/

theorem Display.flip_read (cfg : Cfg) (q : Display) (idx : Nat) :
    (q.flip cfg).fb.read idx =
      if idx < q.panel.pixWidth * q.panel.pixHeight then cfg.flipClearColor else q.fb.read idx :=
  Memory.read_fill ..

/-- A visited display's cells after a loop that clears: the flip-clear color in the buffer. -/
theorem flips_cell {l : List Nat} (hl : l.Nodup) {s : State} {k : Nat} {q : Display} (hk : k ∈ l)
    (hq : s.display k = some q) (idx : Nat) :
    (l.foldl (visit updEvents Display.flip) s).cell k idx =
      if idx < q.panel.pixWidth * q.panel.pixHeight then some s.cfg.flipClearColor
      else s.cell k idx := by
  rw [visits_cell _ _ hl, if_pos hk, hq, State.cell_of_display hq, Option.map_some,
    Display.flip_read]
  exact apply_ite some _ _ _

/-- Settles O47: one visit, of the slot itself. -/
theorem upddUpdatesThenClears : Obligations.UpddUpdatesThenClears := by
  intro s i q hq hr hs
  have hreturns : Returns s (.updd i) ([i].foldl (visit updEvents Display.flip) s) .ok none :=
    flipAt_eq_visit ▸ .updd hq hr
  have hone : [i].Nodup := List.nodup_singleton i
  have hi : i < s.numPositions := Nat.lt_succ_of_lt (State.lt_of_display hq)
  refine ⟨_, exec_of_returns hreturns, hreturns.completed, ?_, ?_, fun k idx hk => ?_, ?_,
    fun k hk => ?_, ?_, ?_, hreturns.frame.params⟩
  · rw [State.finish_trace, visits_trace _ _ hone (by simpa using hi) hs,
      List.flatMap_singleton, hq, ← updEvents_eq_updTrace, List.append_assoc]
    rfl
  · exact flips_cell hone (List.mem_singleton_self i) hq
  · exact (visits_cell updEvents _ hone s k idx).trans (if_neg (by simpa using hk))
  · rw [State.finish_driver, visits_driver _ _ hone, if_pos (List.mem_singleton_self i), hq]
    rfl
  · exact (visits_driver updEvents _ hone s k).trans (if_neg (by simpa using hk))
  · exact (visits_selects _ _ rfl hi hs).1
  · exact (visits_selects _ _ rfl hi hs).2

/-- The last of the masked slots is the highest. -/
theorem maskedSlots_getLast? {mask : Word} {n j : Nat} (hj : j ∈ maskedSlots mask n)
    (hmax : ∀ k, j < k → mask.getLsbD k = false) : (maskedSlots mask n).getLast? = some j := by
  have hsorted : (maskedSlots mask n).Pairwise (· < ·) := List.pairwise_lt_range.filter _
  obtain hnil | ⟨l, m, hl⟩ := List.eq_nil_or_concat (maskedSlots mask n)
  · simp [hnil] at hj
  · have hmem : m ∈ maskedSlots mask n := by simp [hl]
    have hm : mask.getLsbD m = true := (mem_maskedSlots.mp hmem).2
    rw [hl, List.concat_eq_append] at hsorted hj ⊢
    obtain hj | hj := List.mem_append.mp hj
    · obtain ⟨-, -, hbefore⟩ := List.pairwise_append.mp hsorted
      have hjm : j < m := hbefore j hj m (List.mem_singleton_self m)
      simp [hmax m hjm] at hm
    · simp [List.mem_singleton.mp hj]

/-- Settles O48: a visit of every masked slot, in ascending order. -/
theorem updmUpdatesThenClearsTheMask : Obligations.UpdmUpdatesThenClearsTheMask := by
  intro s mask hmask hready hs
  have hmem {k : Nat} (hk : mask.getLsbD k = true) : k ∈ maskedSlots mask s.numSlots := by
    refine mem_maskedSlots.mpr ⟨?_, hk⟩
    by_contra hle
    simp [hmask k (Nat.not_lt.mp hle)] at hk
  have hnotMem {k : Nat} (hk : mask.getLsbD k = false) : k ∉ maskedSlots mask s.numSlots := by
    simp [mem_maskedSlots, hk]
  have hl : (maskedSlots mask s.numSlots).Nodup := maskedSlots_nodup _ _
  have hreturns : Returns s (.updm mask)
      ((maskedSlots mask s.numSlots).foldl (visit updEvents Display.flip) s) .ok none :=
    flipAt_eq_visit ▸ .updm (maskBeyond_eq_false.mpr hmask) fun k hk =>
      State.notReadyAt_eq_false.mpr fun q => hready k q (mem_maskedSlots.mp hk).2
  refine ⟨_, exec_of_returns hreturns, hreturns.completed, ?_, fun k q hq hk => ?_,
    fun k idx hk => ?_, fun k => ?_, fun j hj hmax => ?_, ?_, hreturns.frame.params⟩
  · exact visits_trace_match _ _ hl (fun i hi => (mem_maskedSlots.mp hi).1) hs
      (updEvents_eq_updTrace s.cfg)
  · exact flips_cell hl (hmem hk) hq
  · exact (visits_cell updEvents _ hl s k idx).trans (if_neg (hnotMem hk))
  · refine (visits_driver _ _ hl s k).trans ?_
    cases hk : mask.getLsbD k with
    | true =>
      rw [if_pos (hmem hk), if_pos rfl, State.driver, Option.map_map]
      rfl
    | false => rw [if_neg (hnotMem hk), if_neg (by decide)]
  · have hlast := maskedSlots_getLast? (hmem hj) hmax
    exact visits_selects _ _ hlast (Nat.lt_succ_of_lt (mem_maskedSlots.mp (hmem hj)).1) hs
  · rintro rfl
    have hnil : maskedSlots 0 s.numSlots = [] := by simp [maskedSlots, maskBit]
    rw [State.finish_chain, hnil, List.foldl_nil]

end Sys2Proof.Machine
end
